-- ==== Sys2Proof/Word.lean ====
section
/-! DEFINITION. The Word of the engine, its two readings, and the refusal RangeError
(00_scope.md R8, R10, R19; 60_exceptions.md R121). Slicing, extension and the Word primitives of
R13 to R17 stand in Machine/WordOps.lean. -/

namespace Sys2Proof

/-- "fixed 16-bit binary value with both unsigned and 2's-complement readings" (R19; WORD_WIDTH of R8).
Addresses are Words too (ADDRESS_WIDTH = 16, R8, R41). -/
abbrev Word := BitVec 16

/-- The 8-bit character code that TRAP OUT delivers (R35); what it stands for is the sink's business. -/
abbrev CharCode := BitVec 8

/-- The unsigned reading of a k-bit value (R10). -/
abbrev uint {k : Nat} (v : BitVec k) : Nat := v.toNat

/-- The two's-complement reading of a k-bit value (R10). -/
abbrev sint {k : Nat} (v : BitVec k) : Int := v.toInt

/-- `RangeError`: what a port or a Word primitive answers for a bad argument, changing nothing (R121).
It is no fault of the engine and no step raises it: safe. -/
inductive RangeError where
  | rangeError
  deriving DecidableEq, Repr

end Sys2Proof
end

