-- ==== Sys2Proof/Machine/WordOps.lean ====
section
/-! DEFINITION. Slicing, extension, and the Word primitives of 00_scope.md R9 to R18. The primitives are
values to values: none changes its operand (R18). -/

namespace Sys2Proof

/-- `w[hi:lo]`, the bits hi down to lo of a Word, bit 15 the most significant (R9). -/
abbrev bits (w : Word) (hi lo : Nat) : BitVec (hi - lo + 1) := w.extractLsb hi lo

/-- `sext_16(v)`: copies the top bit of v into the new high bits (R11). -/
def sext16 {k : Nat} (v : BitVec k) : Word := v.signExtend 16

/-- `zext_16(v)`: fills the new high bits with zero (R11). -/
def zext16 {k : Nat} (v : BitVec k) : Word := v.zeroExtend 16

/-- `fromUnsigned(n)`: the Word that reads n unsigned, or RangeError (R13). -/
def fromUnsigned (n : Int) : Except RangeError Word :=
  if 0 ≤ n ∧ n ≤ 65535 then .ok (BitVec.ofInt 16 n) else .error .rangeError

/-- `fromSigned(n)`: the Word that reads n signed, or RangeError (R13). -/
def fromSigned (n : Int) : Except RangeError Word :=
  if -32768 ≤ n ∧ n ≤ 32767 then .ok (BitVec.ofInt 16 n) else .error .rangeError

/-- `field(start, width)`: the width bits from the source's bit index `start` on, index 0 the most
significant; RangeError if `start + width > 16` or `width <= 0` (R14). The result has exactly `width`
bits (90_conflicts.md C4). -/
def field (start width : Nat) (w : Word) : Except RangeError (BitVec width) :=
  if start + width > 16 ∨ width = 0 then .error .rangeError
  else .ok (w.extractLsb' (16 - start - width) width)

/-- `signExtend(width)`: `sext_16`, "defined only for `width` in 1..16" (R15). Another width is a bad
argument, which R121 answers with RangeError (DEDUCED, log entry 15). -/
def signExtendField (width : Nat) (v : BitVec width) : Except RangeError Word :=
  if 1 ≤ width ∧ width ≤ 16 then .ok (sext16 v) else .error .rangeError

/-- `asUnsigned()` (R16). -/
def asUnsigned (w : Word) : Nat := uint w

/-- `asSigned()`, the source's bit 0 (this spec's w[15]) the sign bit (R16). -/
def asSigned (w : Word) : Int := sint w

/-- `invert()`: flips every bit (R17). -/
def invert (w : Word) : Word := ~~~w

/-- `and(other)`: bitwise AND of two values of equal width, RangeError on a width mismatch (R17). -/
def andField {m n : Nat} (a : BitVec m) (b : BitVec n) : Except RangeError (BitVec m) :=
  if m = n then .ok (a &&& b.setWidth m) else .error .rangeError

end Sys2Proof
end

