-- ==== Sys2Proof/Config.lean ====
section
/-! DEFINITION. The named parameters of the engine (00_scope.md R8; 92_eei_decisions.md "Named
parameters") and the values the spec takes for them. Every other quantity is fixed by the rules. -/

namespace Sys2Proof

/-- REG_INIT: what the general registers hold at reset (10_state.md R22, decision D2). -/
inductive RegInit where
  /-- every Ri is 0x0000: the value the spec takes -/
  | zero
  /-- Ri holds i: parity with the reference code only -/
  | index
  deriving DecidableEq, Repr

/-- MEM_CAPACITY, the value the spec takes: 50 words (R8, decision D1; log entry 1). The memory of a
state carries its own capacity, so only `State.reset` uses this constant. -/
def Config.memCapacity : Nat := 50

/-- The largest capacity there is: one word for each 16-bit address (R8, decision D1). -/
def Config.maxCapacity : Nat := 65536

/-- REG_INIT, the value the spec takes (R22, decision D2; log entry 2). -/
def Config.regInit : RegInit := .zero

end Sys2Proof
end

