-- ==== Sys2Proof/Syntax.lean ====
section
/-! DEFINITION. The syntax, whole: the registers, one constructor of `Instr` per row of
spec/opcode_table.json (30_encoding.md R69, without Unknown, which is the decoder's rejection: log
entry 17), and the lines of the spec's assembler notation (R70, R71). -/

namespace Sys2Proof

/-- The eight general registers R0 to R7 (10_state.md R20). -/
inductive Reg where
  | r0 | r1 | r2 | r3 | r4 | r5 | r6 | r7
  deriving DecidableEq, Repr

/-- The instructions, with the fields R69 gives them; a field holds the bits of the word, and what an
immediate is worth is said where it is used (Machine/Operands.lean). -/
inductive Instr where
  /-- ADD, register mode (41_alu.md R93) -/
  | addR (dr sr1 sr2 : Reg)
  /-- ADD, immediate mode (R94) -/
  | addI (dr sr1 : Reg) (imm5 : BitVec 5)
  /-- LD (42_load.md R100) -/
  | ld (dr : Reg) (off9 : BitVec 9)
  /-- AND, register mode (41_alu.md R95) -/
  | andR (dr sr1 sr2 : Reg)
  /-- AND, immediate mode (R96) -/
  | andI (dr sr1 : Reg) (imm5 : BitVec 5)
  /-- NOT (R97) -/
  | notR (dr sr1 : Reg)
  /-- BR with its mask n, z, p (43_branch.md R105) -/
  | br (n z p : Bool) (off9 : BitVec 9)
  /-- TRAP HALT (44_trap.md R110) -/
  | trapHalt
  /-- TRAP OUT (44_trap.md R112) -/
  | trapOut
  deriving DecidableEq, Repr

/-- A line of the spec's assembler notation (R70) or one of its pseudo-instructions (R71). Numbers are
integers here: an assembler must reject one outside its range, so a line can be ill formed. -/
inductive AsmLine where
  | addR (dr sr1 sr2 : Reg)
  | addI (dr sr1 : Reg) (imm : Int)
  | andR (dr sr1 sr2 : Reg)
  | andI (dr sr1 : Reg) (imm : Int)
  | notR (dr sr1 : Reg)
  | ld (dr : Reg) (off : Int)
  /-- `BRm #off`, m the letters of the set mask bits -/
  | br (n z p : Bool) (off : Int)
  | trapHalt
  | trapOut
  /-- the pseudo-instruction `HALT` -/
  | halt
  /-- the pseudo-instruction `OUT` -/
  | out
  /-- the pseudo-instruction `NOP` -/
  | nop
  /-- the directive `.FILL v` -/
  | fill (v : Int)
  deriving DecidableEq, Repr

end Sys2Proof
end

