-- ==== Sys2Proof/WellFormed.lean ====
section
/-! DEFINITION. Well-formedness. The fields of `Instr` have exactly the widths of 30_encoding.md R57,
so no ill-formed instruction can be written; the lines of the assembler notation carry integers and
are checked here (R70, R71). -/

namespace Sys2Proof

/-- Every instruction is well formed: each register field selects a register (R58), each immediate
has its exact width (R60, R61) and each mask is a legal BR (R63). The types say so already, and a new
constructor must say here what it needs. -/
def Instr.wf : Instr → Bool
  | .addR _ _ _ => true
  | .addI _ _ _ => true
  | .ld _ _ => true
  | .andR _ _ _ => true
  | .andI _ _ _ => true
  | .notR _ _ => true
  | .br _ _ _ _ => true
  | .trapHalt => true
  | .trapOut => true

/-- An imm5 operand as written lies in -16..15 (R60, R70). -/
def immInRange (imm : Int) : Bool := decide (-16 ≤ imm) && decide (imm ≤ 15)

/-- A pcOffset9 operand as written lies in -256..255 (R61, R70). -/
def offInRange (off : Int) : Bool := decide (-256 ≤ off) && decide (off ≤ 255)

/-- A `.FILL` number lies in -32768..65535 (R71). -/
def fillInRange (v : Int) : Bool := decide (-32768 ≤ v) && decide (v ≤ 65535)

/-- The checks an assembler makes on a line (R70, R71): the ranges, and that a BR names at least one
flag ("A bare BR with no letters is not accepted"). -/
def AsmLine.wf : AsmLine → Bool
  | .addR _ _ _ => true
  | .addI _ _ imm => immInRange imm
  | .andR _ _ _ => true
  | .andI _ _ imm => immInRange imm
  | .notR _ _ => true
  | .ld _ off => offInRange off
  | .br n z p off => (n || z || p) && offInRange off
  | .trapHalt => true
  | .trapOut => true
  | .halt => true
  | .out => true
  | .nop => true
  | .fill v => fillInRange v

end Sys2Proof
end

