-- ==== Sys2Proof/Decode.lean ====
section
/-! DEFINITION. The decoder (30_encoding.md R56, R57, R69), total on every Word and rejecting by name,
and after it the encoder (R68, R72), the table's mask and match (opcode_table.json) and the bits the
decoder ignores (R67). -/

namespace Sys2Proof

/-- Why a Word is `Unknown`: the two clauses of R66. -/
inductive UnknownWord where
  /-- (a) an opcode no instruction has -/
  | opcode (op : BitVec 4)
  /-- (b) a TRAP whose vector is no service -/
  | trapVector (v : BitVec 8)
  deriving DecidableEq, Repr

/-- What the decoder answers: an instruction, or the variant `Unknown` of R69. -/
inductive Decoded where
  | known (i : Instr)
  | unknown (why : UnknownWord)
  deriving DecidableEq, Repr

/-- A register's index 0 to 7 (R20). -/
def Reg.index : Reg → Nat
  | .r0 => 0 | .r1 => 1 | .r2 => 2 | .r3 => 3 | .r4 => 4 | .r5 => 5 | .r6 => 6 | .r7 => 7

/-- The register a 3-bit field selects: "the value i selects Ri" (R58). -/
def Reg.ofBits (b : BitVec 3) : Reg :=
  match b.toNat with
  | 0 => .r0 | 1 => .r1 | 2 => .r2 | 3 => .r3 | 4 => .r4 | 5 => .r5 | 6 => .r6 | _ => .r7

/-- The 3-bit field that selects a register (R58). -/
def Reg.toBits (r : Reg) : BitVec 3 := BitVec.ofNat 3 r.index

/-- opcode, ir[15:12] (R57). -/
def opcodeField (ir : Word) : BitVec 4 := bits ir 15 12

/-- DR, ir[11:9] (R57). -/
def drField (ir : Word) : Reg := Reg.ofBits (bits ir 11 9)

/-- SR1, ir[8:6] (R57). -/
def sr1Field (ir : Word) : Reg := Reg.ofBits (bits ir 8 6)

/-- SR2, ir[2:0] (R57). -/
def sr2Field (ir : Word) : Reg := Reg.ofBits (bits ir 2 0)

/-- mode, ir[5] (R57, R59): 1 selects the immediate operand of ADD and AND. -/
def modeField (ir : Word) : Bool := ir.getLsbD 5

/-- imm5, ir[4:0] (R57, R60). -/
def imm5Field (ir : Word) : BitVec 5 := bits ir 4 0

/-- pcOffset9, ir[8:0] (R57, R61). -/
def off9Field (ir : Word) : BitVec 9 := bits ir 8 0

/-- trapVector, ir[7:0] (R57, R62). -/
def trapVectorField (ir : Word) : BitVec 8 := bits ir 7 0

/-- The decoder in full (R69; opcode values R64, TRAP services R65). It reads its argument and nothing
else (R56). -/
def decode (ir : Word) : Decoded :=
  if opcodeField ir = 0x0#4 then
    .known (.br (ir.getLsbD 11) (ir.getLsbD 10) (ir.getLsbD 9) (off9Field ir))
  else if opcodeField ir = 0x1#4 then
    if modeField ir then .known (.addI (drField ir) (sr1Field ir) (imm5Field ir))
    else .known (.addR (drField ir) (sr1Field ir) (sr2Field ir))
  else if opcodeField ir = 0x2#4 then
    .known (.ld (drField ir) (off9Field ir))
  else if opcodeField ir = 0x5#4 then
    if modeField ir then .known (.andI (drField ir) (sr1Field ir) (imm5Field ir))
    else .known (.andR (drField ir) (sr1Field ir) (sr2Field ir))
  else if opcodeField ir = 0x9#4 then
    .known (.notR (drField ir) (sr1Field ir))
  else if opcodeField ir = 0xF#4 then
    if trapVectorField ir = 0x25#8 then .known .trapHalt
    else if trapVectorField ir = 0x21#8 then .known .trapOut
    else .unknown (.trapVector (trapVectorField ir))
  else .unknown (.opcode (opcodeField ir))

/-- A field of a word, its least significant bit at bit `lo` (R57, R73: `DR<<9` is `fieldAt 9`). -/
def fieldAt {k : Nat} (lo : Nat) (v : BitVec k) : Word := v.setWidth 16 <<< lo

/-- The word of an instruction, its fields at the places of R68 (the sums of R73), most significant field
first. Ignored bits are canonical: 0, but 111111 in NOT (R72, decision D18). -/
def encode : Instr → Word
  | .addR dr sr1 sr2 =>
    fieldAt 12 0x1#4 ||| fieldAt 9 dr.toBits ||| fieldAt 6 sr1.toBits ||| fieldAt 0 sr2.toBits
  | .addI dr sr1 imm5 =>
    fieldAt 12 0x1#4 ||| fieldAt 9 dr.toBits ||| fieldAt 6 sr1.toBits ||| fieldAt 5 1#1
      ||| fieldAt 0 imm5
  | .ld dr off9 => fieldAt 12 0x2#4 ||| fieldAt 9 dr.toBits ||| fieldAt 0 off9
  | .andR dr sr1 sr2 =>
    fieldAt 12 0x5#4 ||| fieldAt 9 dr.toBits ||| fieldAt 6 sr1.toBits ||| fieldAt 0 sr2.toBits
  | .andI dr sr1 imm5 =>
    fieldAt 12 0x5#4 ||| fieldAt 9 dr.toBits ||| fieldAt 6 sr1.toBits ||| fieldAt 5 1#1
      ||| fieldAt 0 imm5
  | .notR dr sr1 =>
    fieldAt 12 0x9#4 ||| fieldAt 9 dr.toBits ||| fieldAt 6 sr1.toBits ||| fieldAt 0 0x3F#6
  | .br n z p off9 =>
    fieldAt 12 0x0#4 ||| fieldAt 11 (BitVec.ofBool n) ||| fieldAt 10 (BitVec.ofBool z)
      ||| fieldAt 9 (BitVec.ofBool p) ||| fieldAt 0 off9
  | .trapHalt => fieldAt 12 0xF#4 ||| fieldAt 0 0x25#8
  | .trapOut => fieldAt 12 0xF#4 ||| fieldAt 0 0x21#8

/-- The "mask" of the instruction's row of opcode_table.json (R93 to R97, R100, R105, R110, R112). -/
def Instr.tableMask : Instr → Word
  | .addR _ _ _ => 0xF020#16
  | .addI _ _ _ => 0xF020#16
  | .ld _ _ => 0xF000#16
  | .andR _ _ _ => 0xF020#16
  | .andI _ _ _ => 0xF020#16
  | .notR _ _ => 0xF000#16
  | .br _ _ _ _ => 0xF000#16
  | .trapHalt => 0xF0FF#16
  | .trapOut => 0xF0FF#16

/-- The "match" of the instruction's row of opcode_table.json. -/
def Instr.tableMatch : Instr → Word
  | .addR _ _ _ => 0x1000#16
  | .addI _ _ _ => 0x1020#16
  | .ld _ _ => 0x2000#16
  | .andR _ _ _ => 0x5000#16
  | .andI _ _ _ => 0x5020#16
  | .notR _ _ => 0x9000#16
  | .br _ _ _ _ => 0x0000#16
  | .trapHalt => 0xF025#16
  | .trapOut => 0xF021#16

/-- The bits of the instruction's word that no field uses and the decoder ignores (R67, decision D5):
ir[4:3] of ADD and AND in register mode, ir[5:0] of NOT, ir[11:8] of TRAP. -/
def Instr.ignoredBits : Instr → Word
  | .addR _ _ _ => 0x0018#16
  | .addI _ _ _ => 0x0000#16
  | .ld _ _ => 0x0000#16
  | .andR _ _ _ => 0x0018#16
  | .andI _ _ _ => 0x0000#16
  | .notR _ _ => 0x003F#16
  | .br _ _ _ _ => 0x0000#16
  | .trapHalt => 0x0F00#16
  | .trapOut => 0x0F00#16

/-- The Word whose bits opcode_table.json numbers: one word holds the whole instruction (R55), and the
bits above `nbits` are 0. -/
def tableWord (nbits w : Nat) : Word := BitVec.ofNat 16 (w % 2 ^ nbits)

/-- The instruction the decoder reads from a table row's bits. -/
def decodeTableWord (nbits w : Nat) : Option Instr :=
  match decode (tableWord nbits w) with
  | .known i => some i
  | .unknown _ => none

end Sys2Proof
end

