-- ==== Sys2Proof/Machine/State.lean ====
section
/-! DEFINITION. The state as 10_state.md gives it (R20 to R32), as plain data; the outcomes that are no
next state; reset (70_reset_and_hazards.md R140). -/

namespace Sys2Proof.Machine

/-- The condition code: U (unset, at reset only), N, Z, P (R26, decision D7). -/
inductive CC where
  | u | n | z | p
  deriving DecidableEq, Repr

/-- Why the engine faulted: one of two names and nothing more (R29, R120, R122). -/
inductive FaultReason where
  /-- the fetched Word decodes to Unknown -/
  | illegalInstruction
  /-- a fetch address or LD target is not backed -/
  | addressOutOfRange
  deriving DecidableEq, Repr

/-- The execution status (R29). -/
inductive Status where
  | running
  /-- the normal end, entered by TRAP HALT only -/
  | halted
  /-- the end by a fault (R123) -/
  | faulted (reason : FaultReason)
  deriving DecidableEq, Repr

/-- The register file: eight separate Words (R20). Read and written through `State.reg` and
`State.setReg` only. -/
structure RegFile where
  r0 : Word
  r1 : Word
  r2 : Word
  r3 : Word
  r4 : Word
  r5 : Word
  r6 : Word
  r7 : Word
  deriving DecidableEq, Repr

/-- Memory: `capacity` Words at addresses 0 to capacity-1 (R28; `capacity` is MEM_CAPACITY, R8). `cells`
lists the words that differ from the reset contents, in the canonical form `Memory.wf` of
Machine/Ops.lean; an unlisted backed address reads 0x0000 (R28). Cells are whole Words: the unit of
addressing is the Word and no byte order exists (R40, R45; log entries 1 and 13). -/
structure Memory where
  capacity : Nat
  cells    : List (Nat × Word)
  deriving DecidableEq, Repr

/-- The whole state (R32). -/
structure State where
  /-- R0 to R7 (R20) -/
  regs   : RegFile
  /-- the address of the next instruction to fetch (R23) -/
  pc     : Word
  /-- the most recently fetched instruction word (R25) -/
  ir     : Word
  /-- the condition code (R26) -/
  cc     : CC
  /-- the word memory (R28) -/
  mem    : Memory
  /-- the execution status (R29) -/
  status : Status
  /-- the codes TRAP OUT delivered, oldest first (R31) -/
  out    : List CharCode
  deriving DecidableEq, Repr

/-- Why `step` answers no next state. The faults of the SPEC are no such outcome: fault entry is a next
state with `status = faulted reason` (R123; log entry 10). What is left is a step asked for where none
is enabled (R82, decision D9; log entry 8). -/
inductive Fault where
  /-- raised by `step` in `Halted`: no step is enabled there. Safe: nothing runs on. -/
  | noStepWhenHalted
  /-- raised by `step` in `Faulted(reason)`: no step is enabled there. Safe: nothing runs on. -/
  | noStepWhenFaulted (reason : FaultReason)
  deriving DecidableEq, Repr

/-- Why an instruction is refused. -/
inductive Refusal where
  /-- raised by an arm of `exec` whose instruction has no meaning yet. Safe. No arm raises it now. -/
  | notModelled (mnemonic : String)
  deriving DecidableEq, Repr

/-- The general registers at reset, for either value of REG_INIT (R22). -/
def RegFile.atReset : RegInit → RegFile
  | .zero => ⟨0, 0, 0, 0, 0, 0, 0, 0⟩
  | .index => ⟨0, 1, 2, 3, 4, 5, 6, 7⟩

/-- The engine right after construction, for any value of its two parameters (R140). -/
def State.resetWith (capacity : Nat) (regInit : RegInit) : State where
  regs   := RegFile.atReset regInit
  pc     := 0x0000#16
  ir     := 0x0000#16
  cc     := .u
  mem    := ⟨capacity, []⟩
  status := .running
  out    := []

/-- The machine right after reset, with the values the spec takes for its parameters (R140). -/
def State.reset : State := State.resetWith Config.memCapacity Config.regInit

end Sys2Proof.Machine
end

