-- ==== Sys2Proof/Machine/Ops.lean ====
section
/-! DEFINITION. The named operations over state (00_scope.md R12): registers, memory, fetch and advance,
the output port, and fault entry. -/

namespace Sys2Proof.Machine

/-! ### Registers (R20, R12) -/

/-- `x[i]` (R12). -/
def RegFile.get (f : RegFile) : Reg → Word
  | .r0 => f.r0 | .r1 => f.r1 | .r2 => f.r2 | .r3 => f.r3
  | .r4 => f.r4 | .r5 => f.r5 | .r6 => f.r6 | .r7 => f.r7

/-- `x[i] <- v` (R12); every register takes the value, none is hard-wired (R20). -/
def RegFile.set (f : RegFile) (r : Reg) (v : Word) : RegFile :=
  match r with
  | .r0 => { f with r0 := v }
  | .r1 => { f with r1 := v }
  | .r2 => { f with r2 := v }
  | .r3 => { f with r3 := v }
  | .r4 => { f with r4 := v }
  | .r5 => { f with r5 := v }
  | .r6 => { f with r6 := v }
  | .r7 => { f with r7 := v }

/-- Read register `r`. -/
def State.reg (s : State) (r : Reg) : Word := s.regs.get r

/-- Write register `r`. -/
def State.setReg (r : Reg) (v : Word) (s : State) : State := { s with regs := s.regs.set r v }

/-- `pc <- target` (R12). -/
def State.setPc (v : Word) (s : State) : State := { s with pc := v }

/-- `ir <- v`: the fetch's write (R25). -/
def State.setIr (v : Word) (s : State) : State := { s with ir := v }

/-- `cc <- c` (R91). -/
def State.setCc (c : CC) (s : State) : State := { s with cc := c }

/-- `status <- x` (R29). -/
def State.setStatus (x : Status) (s : State) : State := { s with status := x }

/-- Replaces the memory: the load port's write (R44). -/
def State.setMem (m : Memory) (s : State) : State := { s with mem := m }

/-- `emit(c)`: delivers one code to the output port (R12, R35), kept as the trace `out` (R31). -/
def State.emit (c : CharCode) (s : State) : State := { s with out := s.out ++ [c] }

/-! ### Memory (20_memory.md) -/

/-- What a backed address that no cell lists reads as: the reset contents (R28, R50). -/
def unlistedWord : Word := 0x0000#16

/-- The Word a list of cells gives an address. -/
def readCells : List (Nat × Word) → Nat → Word
  | [], _ => unlistedWord
  | (b, v) :: rest, a => if a = b then v else readCells rest a

/-- The cells without those of address `a`. -/
def dropCell (a : Nat) (cells : List (Nat × Word)) : List (Nat × Word) :=
  cells.filter (fun c => c.1 ≠ a)

/-- Puts a cell before the first cell of a higher address. -/
def insertCell (a : Nat) (v : Word) : List (Nat × Word) → List (Nat × Word)
  | [] => [(a, v)]
  | (b, u) :: rest => if a < b then (a, v) :: (b, u) :: rest else (b, u) :: insertCell a v rest

/-- Writes one cell, keeping the canonical form: the unlisted value is not listed. -/
def writeCells (a : Nat) (v : Word) (cells : List (Nat × Word)) : List (Nat × Word) :=
  if v = unlistedWord then dropCell a cells else insertCell a v (dropCell a cells)

/-- The Word at address `a`, `mem[a]`; meant for backed addresses. -/
def Memory.read (m : Memory) (a : Nat) : Word := readCells m.cells a

/-- `MemWrite(a, 1, v)`; precondition `a < capacity` (R44). -/
def Memory.write (m : Memory) (a : Nat) (v : Word) : Memory :=
  { m with cells := writeCells a v m.cells }

/-- An address is backed iff `uint(a) < MEM_CAPACITY` (R41). -/
abbrev Memory.backed (m : Memory) (a : Word) : Prop := uint a < m.capacity

/-- `MemRead(a, 1)`: the Word at a backed address, nothing otherwise (R42); the caller raises
`AddressOutOfRange` then. A read changes nothing (R43). -/
def memRead (m : Memory) (a : Word) : Option Word :=
  if m.backed a then some (m.read (uint a)) else none

/-- The canonical form of a memory: addresses strictly rising, every listed cell backed and different
from what an unlisted address reads as, and a capacity the spec allows (R8: 1..65536). -/
abbrev Memory.wf (m : Memory) : Prop :=
  m.cells.Pairwise (fun x y => x.1 < y.1) ∧
  (∀ c ∈ m.cells, c.1 < m.capacity ∧ c.2 ≠ unlistedWord) ∧
  1 ≤ m.capacity ∧ m.capacity ≤ Config.maxCapacity

/-! ### Fetch and advance (40_engine.md R75 to R77) -/

/-- The fetch's read: `MemRead(pc, 1)` (R76). -/
def fetchWord (s : State) : Option Word := memRead s.mem s.pc

/-- After a successful fetch of `w`: `ir <- w`, then `pc <- pc + 1` modulo 2^16 (R75, R77). -/
def fetchAdvance (w : Word) (s : State) : State := (s.setIr w).setPc (s.pc + 1)

/-! ### Taking a fault (60_exceptions.md R123) -/

/-- `raise Fault(reason)`: `status <- Faulted(reason)`, and nothing else is saved or changed; there is no
vector, no mode and no handler (R123). What the step did before stays (R84, decision D8; log entry 7).
There is no return from a fault to write beside it: `Faulted` is terminal and the engine has no
return instruction (R126). -/
def raiseFault (reason : FaultReason) (s : State) : State := s.setStatus (.faulted reason)

end Sys2Proof.Machine
end

