-- ==== Sys2Proof/Machine/Flags.lean ====
section
/-! DEFINITION. The condition-code unit (41_alu.md R90, R91) and what BR reads of it (43_branch.md
R105). -/

namespace Sys2Proof.Machine

/-- `setcc(v)`: the three-way comparison of the signed value with 0 (R90). -/
def setcc (v : Word) : CC :=
  if sint v < 0 then .n else if sint v = 0 then .z else .p

/-- Whether a BR with mask n, z, p is taken under a condition code: a requested flag equals it (R105).
U matches no mask bit (R108). -/
def branchTaken (n z p : Bool) : CC → Bool
  | .u => false
  | .n => n
  | .z => z
  | .p => p

/-- The optional three-wire encoding of CC, in n, z, p order (decision D7). -/
def CC.nzp : CC → BitVec 3
  | .u => 0b000#3
  | .n => 0b100#3
  | .z => 0b010#3
  | .p => 0b001#3

/-- What every ADD, AND and NOT does with its result: `x[DR] <- r`, then `cc <- setcc(r)` (R91). -/
def aluWrite (dr : Reg) (r : Word) (s : State) : State := (s.setReg dr r).setCc (setcc r)

end Sys2Proof.Machine
end

