-- ==== Sys2Proof/Machine/Operands.lean ====
section
/-! DEFINITION. The operand forms (30_encoding.md R58 to R61): register, immediate, PC-relative. -/

namespace Sys2Proof.Machine

/-- The register operand `x[SR]` (R58). -/
def regOperand (r : Reg) (s : State) : Word := s.reg r

/-- The immediate operand `sext_16(imm5)`, sign-extended to exactly 16 bits, not scaled (R60). -/
def immOperand (imm5 : BitVec 5) : Word := sext16 imm5

/-- The PC-relative address `pc + sext_16(pcOffset9)` modulo 2^16, where pc is already advanced (R61,
R100, R106; decision D3, log entry 3). -/
def pcRelative (off9 : BitVec 9) (s : State) : Word := s.pc + sext16 off9

end Sys2Proof.Machine
end

