-- ==== Sys2Proof/Machine/Alu.lean ====
section
/-! DEFINITION. ADD, AND and NOT (41_alu.md). The sources are read before DR is written (R92), and
overflow wraps silently (R93, R98). -/

namespace Sys2Proof.Machine

/-- ADD, register mode (R93). -/
def execAddR (dr sr1 sr2 : Reg) (s : State) : Host.Outcome State Fault Refusal :=
  .next (aluWrite dr (regOperand sr1 s + regOperand sr2 s) s)

/-- ADD, immediate mode (R94). -/
def execAddI (dr sr1 : Reg) (imm5 : BitVec 5) (s : State) : Host.Outcome State Fault Refusal :=
  .next (aluWrite dr (regOperand sr1 s + immOperand imm5) s)

/-- AND, register mode (R95). -/
def execAndR (dr sr1 sr2 : Reg) (s : State) : Host.Outcome State Fault Refusal :=
  .next (aluWrite dr (regOperand sr1 s &&& regOperand sr2 s) s)

/-- AND, immediate mode (R96). -/
def execAndI (dr sr1 : Reg) (imm5 : BitVec 5) (s : State) : Host.Outcome State Fault Refusal :=
  .next (aluWrite dr (regOperand sr1 s &&& immOperand imm5) s)

/-- NOT (R97). -/
def execNotR (dr sr1 : Reg) (s : State) : Host.Outcome State Fault Refusal :=
  .next (aluWrite dr (invert (regOperand sr1 s)) s)

end Sys2Proof.Machine
end

