-- ==== Sys2Proof/Machine/Branch.lean ====
section
/-! DEFINITION. BR, the only control transfer (43_branch.md). -/

namespace Sys2Proof.Machine

/-- BR (R105): taken, PC takes the PC-relative target, backed or not (R107); not taken, PC stays the
advanced one (R106). Nothing else is written (R109). -/
def execBr (n z p : Bool) (off9 : BitVec 9) (s : State) : Host.Outcome State Fault Refusal :=
  if branchTaken n z p s.cc then .next (s.setPc (pcRelative off9 s)) else .next s

end Sys2Proof.Machine
end

