-- ==== Sys2Proof/Machine/Load.lean ====
section
/-! DEFINITION. LD, the only memory-data instruction (42_load.md). -/

namespace Sys2Proof.Machine

/-- LD (R100): the Word at the PC-relative target goes to DR, and CC stays (R102). A target that is not
backed takes the fault `AddressOutOfRange` with DR, CC and memory unchanged (R101). -/
def execLd (dr : Reg) (off9 : BitVec 9) (s : State) : Host.Outcome State Fault Refusal :=
  match memRead s.mem (pcRelative off9 s) with
  | some v => .next (s.setReg dr v)
  | none => .next (raiseFault .addressOutOfRange s)

end Sys2Proof.Machine
end

