-- ==== Sys2Proof/Machine/Trap.lean ====
section
/-! DEFINITION. The two TRAP services, performed inside the step (44_trap.md R115): no register is
written, no vector table is read, and neither is an exception (R116). -/

namespace Sys2Proof.Machine

/-- TRAP HALT: `status <- Halted` (R110). -/
def execTrapHalt (s : State) : Host.Outcome State Fault Refusal :=
  .next (s.setStatus .halted)

/-- TRAP OUT: emits the low 8 bits of R0 (R112, decision D6; log entry 5). -/
def execTrapOut (s : State) : Host.Outcome State Fault Refusal :=
  .next (s.emit (bits (regOperand .r0 s) 7 0))

end Sys2Proof.Machine
end

