-- ==== Sys2Proof/Machine/Dispatch.lean ====
section
/-! DEFINITION. Execute: dispatch on the decoded variant, with no default case (40_engine.md R79). The
state it gets is after the fetch-advance: PC is the instruction's address plus 1 (R77). -/

namespace Sys2Proof.Machine

def exec (i : Instr) (s : State) : Host.Outcome State Fault Refusal :=
  match i with
  | .addR dr sr1 sr2 => Sys2Proof.Machine.execAddR dr sr1 sr2 s
  | .addI dr sr1 imm5 => Sys2Proof.Machine.execAddI dr sr1 imm5 s
  | .ld dr off9 => Sys2Proof.Machine.execLd dr off9 s
  | .andR dr sr1 sr2 => Sys2Proof.Machine.execAndR dr sr1 sr2 s
  | .andI dr sr1 imm5 => Sys2Proof.Machine.execAndI dr sr1 imm5 s
  | .notR dr sr1 => Sys2Proof.Machine.execNotR dr sr1 s
  | .br n z p off9 => Sys2Proof.Machine.execBr n z p off9 s
  | .trapHalt => Sys2Proof.Machine.execTrapHalt s
  | .trapOut => Sys2Proof.Machine.execTrapOut s

end Sys2Proof.Machine
end

