-- ==== Sys2Proof/Machine/Step.lean ====
section
/-! DEFINITION. One step of the engine (40_engine.md R75), and how the host places an instruction where
the next step fetches it. -/

namespace Sys2Proof.Machine

/-- Decode and execute, after a fetch of `w` that advanced to `s` (R75 parts 3 and 4): an Unknown word
takes the fault `IllegalInstruction` (R78). -/
def decodeExecute (w : Word) (s : State) : Host.Outcome State Fault Refusal :=
  match decode w with
  | .known i => exec i s
  | .unknown _ => .next (raiseFault .illegalInstruction s)

/-- `step()` (R75): fetch, advance, decode, execute, as one transition. A fetch outside memory takes the
fault `AddressOutOfRange`, with PC and IR unchanged (R76). In `Halted` and `Faulted` no step is enabled
(R82), and the answer is no next state (decision D9; log entry 8). -/
def step (s : State) : Host.Outcome State Fault Refusal :=
  match s.status with
  | .halted => .fault .noStepWhenHalted
  | .faulted reason => .fault (.noStepWhenFaulted reason)
  | .running =>
    match fetchWord s with
    | none => .next (raiseFault .addressOutOfRange s)
    | some w => decodeExecute w (fetchAdvance w s)

/-- `s` with a table row's instruction stored where the next step fetches: the word at PC. A fetch needs
status `Running` and a backed PC, so the status becomes `Running`, and a PC that is not backed becomes
the reset vector 0 (log entry 14). It stands for the load of a program (R141). -/
def State.withFetchWord (s : State) (nbits w : Nat) : State :=
  let a : Word := if s.mem.backed s.pc then s.pc else 0x0000#16
  ((s.setStatus .running).setPc a).setMem (s.mem.write (uint a) (tableWord nbits w))

end Sys2Proof.Machine
end

