-- ==== Sys2Proof/Machine/Assembly.lean ====
section
/-! DEFINITION. The spec's assembler notation: what a line assembles to, how a Word disassembles, and the
text of a line (30_encoding.md R70 to R74; decisions D17 and D18, log entry 20). No behaviour of the
engine depends on it. -/

namespace Sys2Proof

/-- The Word a line stands for, its numbers cut to their fields; meant for well-formed lines. -/
def AsmLine.word : AsmLine → Word
  | .addR dr sr1 sr2 => encode (.addR dr sr1 sr2)
  | .addI dr sr1 imm => encode (.addI dr sr1 (BitVec.ofInt 5 imm))
  | .andR dr sr1 sr2 => encode (.andR dr sr1 sr2)
  | .andI dr sr1 imm => encode (.andI dr sr1 (BitVec.ofInt 5 imm))
  | .notR dr sr1 => encode (.notR dr sr1)
  | .ld dr off => encode (.ld dr (BitVec.ofInt 9 off))
  | .br n z p off => encode (.br n z p (BitVec.ofInt 9 off))
  | .trapHalt => encode .trapHalt
  | .trapOut => encode .trapOut
  | .halt => encode .trapHalt
  | .out => encode .trapOut
  | .nop => encode (.br false false false 0#9)
  | .fill v => BitVec.ofInt 16 v

/-- Assembling: an ill-formed line is rejected, never truncated (R70). -/
def assemble (l : AsmLine) : Option Word := if l.wf then some l.word else none

/-- The line a Word disassembles to (R74): an Unknown word, and a BR with mask 000 and a non-zero offset,
become `.FILL` of the word. -/
def disassemble (w : Word) : AsmLine :=
  match decode w with
  | .known (.addR dr sr1 sr2) => .addR dr sr1 sr2
  | .known (.addI dr sr1 imm5) => .addI dr sr1 (sint imm5)
  | .known (.ld dr off9) => .ld dr (sint off9)
  | .known (.andR dr sr1 sr2) => .andR dr sr1 sr2
  | .known (.andI dr sr1 imm5) => .andI dr sr1 (sint imm5)
  | .known (.notR dr sr1) => .notR dr sr1
  | .known (.br n z p off9) =>
    if n || z || p then .br n z p (sint off9)
    else if off9 = 0#9 then .nop
    else .fill (uint w)
  | .known .trapHalt => .trapHalt
  | .known .trapOut => .trapOut
  | .unknown _ => .fill (uint w)

/-- The canonical Word of a Word: its ignored bits as R72 writes them (R74). -/
def canonicalWord (w : Word) : Word :=
  match decode w with
  | .known i => encode i
  | .unknown _ => w

/-- `R0` to `R7` (R70). -/
def Reg.text : Reg → String
  | .r0 => "R0" | .r1 => "R1" | .r2 => "R2" | .r3 => "R3"
  | .r4 => "R4" | .r5 => "R5" | .r6 => "R6" | .r7 => "R7"

/-- A decimal number, `#d` (R70). -/
def decimalText (n : Int) : String := "#" ++ toString n

/-- One hexadecimal digit. -/
def hexDigitText (n : Nat) : String := String.singleton (Nat.digitChar (n % 16)).toUpper

/-- A Word as `xHHHH` (R70, R74). -/
def hexWordText (w : Word) : String :=
  "x" ++ hexDigitText (uint w / 4096) ++ hexDigitText (uint w / 256) ++ hexDigitText (uint w / 16)
    ++ hexDigitText (uint w)

/-- The letters of a BR mask, in the order n, z, p (R70). -/
def maskText (n z p : Bool) : String :=
  (if n then "n" else "") ++ (if z then "z" else "") ++ (if p then "p" else "")

/-- Two registers, separated by a comma (R70). -/
def regPairText (a b : Reg) : String := a.text ++ "," ++ b.text

/-- The text of a line (R70, R71), spaced as the source's examples are; `.FILL` in hexadecimal (R74). -/
def AsmLine.text : AsmLine → String
  | .addR dr sr1 sr2 => "ADD " ++ regPairText dr sr1 ++ "," ++ sr2.text
  | .addI dr sr1 imm => "ADD " ++ regPairText dr sr1 ++ "," ++ decimalText imm
  | .andR dr sr1 sr2 => "AND " ++ regPairText dr sr1 ++ "," ++ sr2.text
  | .andI dr sr1 imm => "AND " ++ regPairText dr sr1 ++ "," ++ decimalText imm
  | .notR dr sr1 => "NOT " ++ regPairText dr sr1
  | .ld dr off => "LD " ++ dr.text ++ "," ++ decimalText off
  | .br n z p off => "BR" ++ maskText n z p ++ " " ++ decimalText off
  | .trapHalt => "TRAP HALT"
  | .trapOut => "TRAP OUT"
  | .halt => "HALT"
  | .out => "OUT"
  | .nop => "NOP"
  | .fill v => ".FILL " ++ hexWordText (BitVec.ofInt 16 v)

end Sys2Proof
end

