-- ==== Sys2Proof/Machine/Ports.lean ====
section
/-! DEFINITION. The ports of the engine (10_state.md R33 to R38), the run loop (40_engine.md R85) and
launch states (70_reset_and_hazards.md R141). -/

namespace Sys2Proof.Machine

/-- `load(address, word)`: writes one Word before the first step, or answers RangeError and changes
nothing (R33, decisions D10 and D11). -/
def loadPort (address : Int) (word : Word) (s : State) : Except RangeError State :=
  if 0 ≤ address ∧ address < s.mem.capacity then
    .ok (s.setMem (s.mem.write address.toNat word))
  else .error .rangeError

/-- The state after a call of the load port, whether it was accepted or not (R33). -/
def afterLoad (address : Int) (word : Word) (s : State) : State :=
  match loadPort address word s with
  | .ok t => t
  | .error _ => s

/-- The state after a call of the step port: where no step is enabled the call changes no state (R34,
R82). A step that answers no next state is such a call. -/
def stepPort (s : State) : State :=
  match step s with
  | .next t => t
  | .fault _ => s
  | .refused _ => s

/-- `run()` under a caller's step budget: repeats the step while status is `Running` (R37, R85; the
budget is outside the block, decision D14). -/
def runFor : Nat → State → State
  | 0, s => s
  | k + 1, s => if s.status = .running then runFor k (stepPort s) else s

/-- Inspection ports: read-only, each the value of a state element (R36). -/
def inspectPc (s : State) : Word := s.pc

/-- Inspection of IR (R36). -/
def inspectIr (s : State) : Word := s.ir

/-- Inspection of the condition code (R36). -/
def inspectCc (s : State) : CC := s.cc

/-- Inspection of a register (R36). -/
def inspectReg (r : Reg) (s : State) : Word := s.reg r

/-- Inspection of the status (R36, R30). -/
def inspectStatus (s : State) : Status := s.status

/-- Inspection of a memory cell; an address outside the memory answers RangeError (R36, decision D12). -/
def inspectMem (address : Int) (s : State) : Except RangeError Word :=
  if 0 ≤ address ∧ address < s.mem.capacity then .ok (s.mem.read address.toNat)
  else .error .rangeError

/-- The launch state: the reset state after the loader's writes, in order, a refused one changing
nothing (R141). -/
def launchState (capacity : Nat) (regInit : RegInit) (loads : List (Int × Word)) : State :=
  loads.foldl (fun s l => afterLoad l.1 l.2 s) (State.resetWith capacity regInit)

end Sys2Proof.Machine
end

