-- ==== Sys2Proof/Safety.lean ====
section
/-! DEFINITION. The terms claims are stated in: final states and ends of runs (40_engine.md R89), the
invariant every step keeps, and what it means that registers or memory are kept. -/

namespace Sys2Proof.Machine

/-- A state is final iff its status is `Halted` or `Faulted(reason)` (R89). -/
def Final (s : State) : Prop := s.status ≠ .running

/-- The one good end (R89, R111). -/
def GoodEnd (s : State) : Prop := s.status = .halted

/-- A bad end: it refutes a claim that the program completes (R89, R127). -/
def BadEnd (s : State) : Prop := ∃ reason, s.status = .faulted reason

/-- `run()` from `s` ends in `t` (R37, R85). -/
def RunEndsIn (s t : State) : Prop := Final t ∧ ∃ k, runFor k s = t

/-- A run that reaches no final state (R86, R89). -/
def Hangs (s : State) : Prop := ∀ k, (runFor k s).status = .running

/-- The safe end of a run: it halts. -/
def SafeRun (s : State) : Prop := ∃ t, RunEndsIn s t ∧ GoodEnd t

/-- The invariant of the machine: memory is in its canonical form with a capacity the spec allows (R8,
R28), and `Halted` is entered only by TRAP HALT, whose word IR then holds (R29, R110). -/
def State.Inv (s : State) : Prop :=
  s.mem.wf ∧ (s.status = .halted → decode s.ir = .known .trapHalt)

/-- Every register reads as before. -/
def RegsKept (s t : State) : Prop := ∀ r, t.reg r = s.reg r

/-- Every register but `d` reads as before. -/
def RegsKeptExcept (d : Reg) (s t : State) : Prop := ∀ r, r ≠ d → t.reg r = s.reg r

/-- The capacity and every word of memory are as before. -/
def MemoryKept (s t : State) : Prop :=
  t.mem.capacity = s.mem.capacity ∧ ∀ a, t.mem.read a = s.mem.read a

/-- Nothing but register `d` and the condition code may differ: what an ALU instruction may touch. -/
def KeptButRegAndCc (d : Reg) (s t : State) : Prop :=
  RegsKeptExcept d s t ∧ t.pc = s.pc ∧ t.ir = s.ir ∧ MemoryKept s t ∧ t.status = s.status ∧
    t.out = s.out

/-- The registers, the condition code, memory and the output trace are as before. -/
def DataKept (s t : State) : Prop :=
  RegsKept s t ∧ t.cc = s.cc ∧ MemoryKept s t ∧ t.out = s.out

/-- The destination register of an instruction that sets the condition code: ADD, AND and NOT, and no
other (R91). -/
def aluDest : Instr → Option Reg
  | .addR dr _ _ => some dr
  | .addI dr _ _ => some dr
  | .ld _ _ => none
  | .andR dr _ _ => some dr
  | .andI dr _ _ => some dr
  | .notR dr _ => some dr
  | .br _ _ _ _ => none
  | .trapHalt => none
  | .trapOut => none

/-- The destination register of an instruction that writes one (R21): the ALU instructions and LD. -/
def destReg : Instr → Option Reg
  | .addR dr _ _ => some dr
  | .addI dr _ _ => some dr
  | .ld dr _ => some dr
  | .andR dr _ _ => some dr
  | .andI dr _ _ => some dr
  | .notR dr _ => some dr
  | .br _ _ _ _ => none
  | .trapHalt => none
  | .trapOut => none

/-- The word at PC: what the next step fetches when PC is backed. -/
def wordAtPc (s : State) : Word := s.mem.read (uint s.pc)

/-- The three rows of R120's table: what makes the next step of `s` fault, and with which reason. The LD
target is taken from the advanced PC (R100). -/
def CausesFault (s : State) (reason : FaultReason) : Prop :=
  (¬ s.mem.backed s.pc ∧ reason = .addressOutOfRange) ∨
  (s.mem.backed s.pc ∧ (∃ why, decode (wordAtPc s) = .unknown why) ∧ reason = .illegalInstruction) ∨
  (s.mem.backed s.pc ∧ (∃ dr off9, decode (wordAtPc s) = .known (.ld dr off9) ∧
    s.mem.capacity ≤ uint (s.pc + 1 + sext16 off9)) ∧ reason = .addressOutOfRange)

end Sys2Proof.Machine
end

