-- ==== Sys2Proof/Certificates/Slice0/Obligations.lean ====
section
/-! DEFINITION. The statements for the provers. They come from the numbered rules of spec/; OBLIGATIONS.json
says of each which rules it formalises. A statement that rests on one of the spec's own decisions
(D<n>) or inferences is 'derived', and its docstring names the decision and the log entry. -/

open Sys2Proof Sys2Proof.Machine

/-! ### Word primitives -/

/-- R13 and R16: fromSigned and fromUnsigned build the Word that reads back as the number, and fail
with RangeError exactly when the number does not fit; asSigned takes w[15] as the sign bit. -/
def Obligations.WordNumbersReadBack : Prop :=
  (∀ n : Int, -32768 ≤ n → n ≤ 32767 → ∃ w, fromSigned n = .ok w ∧ asSigned w = n) ∧
  (∀ n : Int, n < -32768 ∨ 32767 < n → fromSigned n = .error .rangeError) ∧
  (∀ n : Int, 0 ≤ n → n ≤ 65535 → ∃ w, fromUnsigned n = .ok w ∧ (asUnsigned w : Int) = n) ∧
  (∀ n : Int, n < 0 ∨ 65535 < n → fromUnsigned n = .error .rangeError) ∧
  (∀ w : Word, asSigned w = (asUnsigned w : Int) - (if w.getLsbD 15 then 65536 else 0))

/-- R15: sign extension of a width of 1 to 16 bits copies the top bit into the new high bits, keeps the
signed value, and at width 16 returns its operand. -/
def Obligations.SignExtensionKeepsSignedValue : Prop :=
  (∀ (width : Nat) (v : BitVec width), 1 ≤ width → width ≤ 16 →
    ∃ w : Word, signExtendField width v = .ok w ∧ asSigned w = sint v ∧
      ∀ k, k < 16 → w.getLsbD k = v.getLsbD (if k < width then k else width - 1)) ∧
  (∀ v : BitVec 16, signExtendField 16 v = .ok v)

/-- R14 and R17: field extracts exactly its bits (in source numbering, index 0 most significant) or
fails with RangeError; invert flips every bit; and is bitwise on equal widths and fails otherwise. -/
def Obligations.FieldInvertAndOnWords : Prop :=
  (∀ (start width : Nat) (w : Word), 1 ≤ width → start + width ≤ 16 →
    ∃ f : BitVec width, field start width w = .ok f ∧
      uint f = uint w / 2 ^ (16 - start - width) % 2 ^ width) ∧
  (∀ (start width : Nat) (w : Word), 16 < start + width ∨ width = 0 →
    field start width w = .error .rangeError) ∧
  (∀ (w : Word) (k : Nat), k < 16 → (invert w).getLsbD k = !w.getLsbD k) ∧
  (∀ (n : Nat) (a b : BitVec n), ∃ c : BitVec n, andField a b = .ok c ∧
    ∀ k, k < n → c.getLsbD k = (a.getLsbD k && b.getLsbD k)) ∧
  (∀ (m n : Nat) (a : BitVec m) (b : BitVec n), m ≠ n → andField a b = .error .rangeError)

/-! ### Encoding -/

/-- Decoding the word of a well-formed instruction gives the instruction back, with every operand at
every value its field admits. The ignored bits of the encoder's words are those of R72 (decisions D5
and D18, log entries 4 and 20). -/
def Obligations.DecodeEncodeRoundTrip : Prop :=
  ∀ i : Instr, i.wf = true → decode (encode i) = .known i

/-- A word decodes to an instruction exactly when it equals that instruction's word on every bit the
decoder does not ignore: no significant bit is dropped, and no ignored bit matters (R67, decision D5,
log entry 4). -/
def Obligations.DecodeIgnoresExactlyTheUnusedBits : Prop :=
  ∀ (w : Word) (i : Instr),
    decode w = .known i ↔ w &&& ~~~ i.ignoredBits = encode i &&& ~~~ i.ignoredBits

/-- R64 and R65: the opcode map, with the two TRAP services, and every other opcode and vector illegal. -/
def Obligations.OpcodeMapAndTrapServices : Prop :=
  ∀ w : Word,
    (uint w / 4096 = 0 → ∃ n z p off9, decode w = .known (.br n z p off9)) ∧
    (uint w / 4096 = 1 → (∃ d a b, decode w = .known (.addR d a b)) ∨
      (∃ d a m, decode w = .known (.addI d a m))) ∧
    (uint w / 4096 = 2 → ∃ d off9, decode w = .known (.ld d off9)) ∧
    (uint w / 4096 = 5 → (∃ d a b, decode w = .known (.andR d a b)) ∨
      (∃ d a m, decode w = .known (.andI d a m))) ∧
    (uint w / 4096 = 9 → ∃ d a, decode w = .known (.notR d a)) ∧
    (uint w / 4096 = 15 → uint w % 256 = 37 → decode w = .known .trapHalt) ∧
    (uint w / 4096 = 15 → uint w % 256 = 33 → decode w = .known .trapOut) ∧
    (uint w / 4096 = 15 → uint w % 256 ≠ 37 → uint w % 256 ≠ 33 →
      ∃ why, decode w = .unknown why) ∧
    (uint w / 4096 ∈ [3, 4, 6, 7, 8, 10, 11, 12, 13, 14] → ∃ why, decode w = .unknown why)

/-- R57, R58 and R63: the fields of a decoded instruction are the word's bits at the places of the field
table, a register field of value i selecting Ri. -/
def Obligations.FieldsStandWhereTheTableSays : Prop :=
  (∀ (w : Word) (d a b : Reg),
    decode w = .known (.addR d a b) ∨ decode w = .known (.andR d a b) →
    uint w / 32 % 2 = 0 ∧ d.index = uint w / 512 % 8 ∧ a.index = uint w / 64 % 8 ∧
      b.index = uint w % 8) ∧
  (∀ (w : Word) (d a : Reg) (imm5 : BitVec 5),
    decode w = .known (.addI d a imm5) ∨ decode w = .known (.andI d a imm5) →
    uint w / 32 % 2 = 1 ∧ d.index = uint w / 512 % 8 ∧ a.index = uint w / 64 % 8 ∧
      uint imm5 = uint w % 32) ∧
  (∀ (w : Word) (d a : Reg), decode w = .known (.notR d a) →
    d.index = uint w / 512 % 8 ∧ a.index = uint w / 64 % 8) ∧
  (∀ (w : Word) (d : Reg) (off9 : BitVec 9), decode w = .known (.ld d off9) →
    d.index = uint w / 512 % 8 ∧ uint off9 = uint w % 512) ∧
  (∀ (w : Word) (n z p : Bool) (off9 : BitVec 9), decode w = .known (.br n z p off9) →
    n = w.getLsbD 11 ∧ z = w.getLsbD 10 ∧ p = w.getLsbD 9 ∧ uint off9 = uint w % 512) ∧
  (∀ (n z p : Bool) (off9 : BitVec 9), ∃ w, decode w = .known (.br n z p off9)) ∧
  (∀ w : Word, decode w = .known .trapHalt ∨ decode w = .known .trapOut ∨
      (∃ v, decode w = .unknown (.trapVector v)) →
    uint (trapVectorField w) = uint w % 256) ∧
  (∀ k, k < 8 → ∃ r : Reg, Reg.ofBits (BitVec.ofNat 3 k) = r ∧ r.index = k)

/-- R60: imm5 is ir[4:0] and its operand value is its signed value, in -16..15, unscaled and extended to
exactly 16 bits (bits 15..4 all copy imm5's top bit), before the AND and before the ADD. -/
def Obligations.ImmediateIsSignExtendedToSixteenBits : Prop :=
  (∀ w : Word,
    uint (imm5Field w) = uint w % 32 ∧
    sint (immOperand (imm5Field w)) = sint (imm5Field w) ∧
    -16 ≤ sint (imm5Field w) ∧ sint (imm5Field w) ≤ 15 ∧
    ∀ k, 4 ≤ k → k < 16 → (immOperand (imm5Field w)).getLsbD k = w.getLsbD 4) ∧
  (∀ (d a : Reg) (imm5 : BitVec 5) (s : State), ∃ t u,
    exec (.addI d a imm5) s = .next t ∧ t.reg d = s.reg a + immOperand imm5 ∧
    exec (.andI d a imm5) s = .next u ∧ u.reg d = s.reg a &&& immOperand imm5)

/-- The arithmetic of hand assembly (R73, an inference of the spec; canonical ignored bits are decision
D18, log entry 20). -/
def Obligations.EncodingArithmetic : Prop :=
  (∀ d a b, uint (encode (.addR d a b)) = 0x1000 + d.index * 512 + a.index * 64 + b.index) ∧
  (∀ d a m, uint (encode (.addI d a m)) = 0x1020 + d.index * 512 + a.index * 64 + uint m) ∧
  (∀ d a b, uint (encode (.andR d a b)) = 0x5000 + d.index * 512 + a.index * 64 + b.index) ∧
  (∀ d a m, uint (encode (.andI d a m)) = 0x5020 + d.index * 512 + a.index * 64 + uint m) ∧
  (∀ d a, uint (encode (.notR d a)) = 0x903F + d.index * 512 + a.index * 64) ∧
  (∀ d off9, uint (encode (.ld d off9)) = 0x2000 + d.index * 512 + uint off9) ∧
  (∀ n z p off9, uint (encode (.br n z p off9))
    = n.toNat * 2048 + z.toNat * 1024 + p.toNat * 512 + uint off9) ∧
  encode .trapHalt = 0xF025#16 ∧ encode .trapOut = 0xF021#16

/-- Words written out from the spec's encodings decode to the instructions they stand for (the worked
encodings of R73 and rows of 95_test_vectors.md). The last two have ignored bits that are not
canonical (decision D5, log entry 4). -/
def Obligations.HandWrittenWordsDecode : Prop :=
  decode 0x1225#16 = .known (.addI .r1 .r0 5#5) ∧
  decode 0x1401#16 = .known (.addR .r2 .r0 .r1) ∧
  decode 0x2202#16 = .known (.ld .r1 2#9) ∧
  decode 0x5220#16 = .known (.andI .r1 .r0 0#5) ∧
  decode 0x5401#16 = .known (.andR .r2 .r0 .r1) ∧
  decode 0x96FF#16 = .known (.notR .r3 .r3) ∧
  decode 0x0FFF#16 = .known (.br true true true (-1#9)) ∧
  decode 0xF025#16 = .known .trapHalt ∧
  decode 0xF021#16 = .known .trapOut ∧
  decode 0x1018#16 = .known (.addR .r0 .r0 .r0) ∧
  decode 0xFA21#16 = .known .trapOut

/-- Disassembling and re-assembling gives the canonical Word, which decodes to the same (R74; the
notation is the spec's own decision D17, log entry 20). -/
def Obligations.ReassemblingGivesTheCanonicalWord : Prop :=
  ∀ w : Word, assemble (disassemble w) = some (canonicalWord w) ∧
    decode (canonicalWord w) = decode w

/-- An assembler rejects a number outside its range, and a BR that names no flag; inside the range the
word decodes to the instruction with exactly the number written (R70; decision D17, log entry 20). -/
def Obligations.AssemblerRejectsOutOfRangeNumbers : Prop :=
  (∀ (d a : Reg) (m : Int), -16 ≤ m → m ≤ 15 →
    ∃ w imm5, assemble (.addI d a m) = some w ∧ decode w = .known (.addI d a imm5) ∧
      sint imm5 = m) ∧
  (∀ (d a : Reg) (m : Int), m < -16 ∨ 15 < m →
    assemble (.addI d a m) = none ∧ assemble (.andI d a m) = none) ∧
  (∀ (d : Reg) (off : Int), -256 ≤ off → off ≤ 255 →
    ∃ w off9, assemble (.ld d off) = some w ∧ decode w = .known (.ld d off9) ∧ sint off9 = off) ∧
  (∀ (d : Reg) (n z p : Bool) (off : Int), off < -256 ∨ 255 < off →
    assemble (.ld d off) = none ∧ assemble (.br n z p off) = none) ∧
  (∀ off : Int, assemble (.br false false false off) = none)

/-! ### Registers and the condition-code unit -/

/-- R20: eight registers, indexed 0 to 7 by a 3-bit field, each a cell of its own: a write is read back
from the register written, whichever it is, and from no other. -/
def Obligations.RegistersAreSeparateCells : Prop :=
  (∀ (s : State) (r q : Reg) (v : Word),
    (s.setReg r v).reg q = if q = r then v else s.reg q) ∧
  (∀ r : Reg, r.index < 8 ∧ Reg.ofBits r.toBits = r ∧ uint r.toBits = r.index) ∧
  (∀ r q : Reg, r.index = q.index → r = q) ∧
  (∀ k, k < 8 → ∃ r : Reg, r.index = k)

/-- R90: setcc is N, Z or P by the sign of the value, exactly one of them, never U; N is bit 15. -/
def Obligations.SetccIsTheThreeWaySign : Prop :=
  ∀ v : Word,
    (setcc v = .n ↔ sint v < 0) ∧ (setcc v = .z ↔ sint v = 0) ∧ (setcc v = .p ↔ 0 < sint v) ∧
    (setcc v = .n ↔ v.getLsbD 15 = true) ∧ (setcc v = .z ↔ v = 0x0000#16) ∧
    (setcc v = .p ↔ v.getLsbD 15 = false ∧ v ≠ 0x0000#16) ∧ setcc v ≠ .u

/-- R91: every ADD, AND and NOT writes CC with setcc of the value now in DR, and LD, BR, TRAP HALT and
TRAP OUT leave CC unchanged. -/
def Obligations.ConditionCodeIsWrittenByAluOnly : Prop :=
  ∀ (i : Instr) (s : State), ∃ t, exec i s = .next t ∧
    (∀ d, aluDest i = some d → t.cc = setcc (t.reg d)) ∧
    (aluDest i = none → t.cc = s.cc)

/-- R27: CC is written by ADD, AND and NOT with setcc of the destination's new value and by nothing
else; only BR reads it: run from a state with another CC, every other instruction gives the same
registers, PC, IR, memory, status and output, and an ALU instruction the same CC; at reset it is U. -/
def Obligations.ConditionCodeIsReadByBranchOnly : Prop :=
  (∀ (i : Instr) (s t : State), exec i s = .next t →
    (∀ d, aluDest i = some d → t.cc = setcc (t.reg d)) ∧ (aluDest i = none → t.cc = s.cc)) ∧
  (∀ (i : Instr) (s t : State) (c : CC), (∀ n z p off9, i ≠ .br n z p off9) →
    exec i s = .next t →
    ∃ u, exec i (s.setCc c) = .next u ∧ RegsKept t u ∧ u.pc = t.pc ∧ u.ir = t.ir ∧
      MemoryKept t u ∧ u.status = t.status ∧ u.out = t.out ∧
      u.cc = if aluDest i = none then c else t.cc) ∧
  State.reset.cc = .u

/-! ### ADD, AND, NOT -/

/-- ADD, register mode (R93): its words are those of mask 0xF020 and match 0x1000, and it writes the sum
modulo 2^16 to DR and CC from it, in every state, whatever the registers, and nothing else. That
ir[4:3] is ignored is decision D5 (log entry 4). -/
def Obligations.AddRegisterWritesTheSum : Prop :=
  (∀ w : Word, w &&& 0xF020#16 = 0x1000#16 →
    ∃ d a b, decode w = .known (.addR d a b) ∧ d.index = uint w / 512 % 8 ∧
      a.index = uint w / 64 % 8 ∧ b.index = uint w % 8) ∧
  ∀ (d a b : Reg) (s : State), ∃ t, exec (.addR d a b) s = .next t ∧
    uint (t.reg d) = (uint (s.reg a) + uint (s.reg b)) % 65536 ∧
    t.cc = setcc (t.reg d) ∧ KeptButRegAndCc d s t

/-- R94: ADD, immediate mode: its words are those of mask 0xF020 and match 0x1020, and it writes the sum
of SR1 and the signed immediate modulo 2^16 to DR and CC from it, and nothing else. -/
def Obligations.AddImmediateWritesTheSum : Prop :=
  (∀ w : Word, w &&& 0xF020#16 = 0x1020#16 →
    ∃ d a imm5, decode w = .known (.addI d a imm5) ∧ d.index = uint w / 512 % 8 ∧
      a.index = uint w / 64 % 8 ∧ uint imm5 = uint w % 32) ∧
  ∀ (d a : Reg) (imm5 : BitVec 5) (s : State), ∃ t, exec (.addI d a imm5) s = .next t ∧
    (uint (t.reg d) : Int) = ((uint (s.reg a) : Int) + sint imm5) % 65536 ∧
    t.cc = setcc (t.reg d) ∧ KeptButRegAndCc d s t

/-- AND, register mode (R95): its words are those of mask 0xF020 and match 0x5000, and it writes the
bitwise AND to DR and CC from it, and nothing else. That ir[4:3] is ignored is decision D5 (log
entry 4). -/
def Obligations.AndRegisterIsBitwise : Prop :=
  (∀ w : Word, w &&& 0xF020#16 = 0x5000#16 →
    ∃ d a b, decode w = .known (.andR d a b) ∧ d.index = uint w / 512 % 8 ∧
      a.index = uint w / 64 % 8 ∧ b.index = uint w % 8) ∧
  ∀ (d a b : Reg) (s : State), ∃ t, exec (.andR d a b) s = .next t ∧
    (∀ k, k < 16 → (t.reg d).getLsbD k = ((s.reg a).getLsbD k && (s.reg b).getLsbD k)) ∧
    t.cc = setcc (t.reg d) ∧ KeptButRegAndCc d s t

/-- R96: AND, immediate mode: its words are those of mask 0xF020 and match 0x5020, and it writes the
bitwise AND of SR1 with the immediate, whose bits 15..4 are all its top bit, and CC from it, and
nothing else. -/
def Obligations.AndImmediateIsBitwise : Prop :=
  (∀ w : Word, w &&& 0xF020#16 = 0x5020#16 →
    ∃ d a imm5, decode w = .known (.andI d a imm5) ∧ d.index = uint w / 512 % 8 ∧
      a.index = uint w / 64 % 8 ∧ uint imm5 = uint w % 32) ∧
  ∀ (d a : Reg) (imm5 : BitVec 5) (s : State), ∃ t, exec (.andI d a imm5) s = .next t ∧
    (∀ k, k < 16 → (t.reg d).getLsbD k
      = ((s.reg a).getLsbD k && imm5.getLsbD (if k < 4 then k else 4))) ∧
    t.cc = setcc (t.reg d) ∧ KeptButRegAndCc d s t

/-- NOT (R97): its words are those of mask 0xF000 and match 0x9000, and it writes SR1 with every bit
flipped to DR and CC from it, and nothing else. That ir[5:0] is ignored is decision D5 (log entry 4). -/
def Obligations.NotFlipsEveryBit : Prop :=
  (∀ w : Word, w &&& 0xF000#16 = 0x9000#16 →
    ∃ d a, decode w = .known (.notR d a) ∧ d.index = uint w / 512 % 8 ∧
      a.index = uint w / 64 % 8) ∧
  ∀ (d a : Reg) (s : State), ∃ t, exec (.notR d a) s = .next t ∧
    (∀ k, k < 16 → (t.reg d).getLsbD k = !(s.reg a).getLsbD k) ∧
    t.cc = setcc (t.reg d) ∧ KeptButRegAndCc d s t

/-- The laws of R99 (inferences of the spec): ADD is commutative in value and CC; AND with -1 and ADD
with 0 copy SR1; NOT twice restores the value. -/
def Obligations.AluLaws : Prop :=
  (∀ (d a b : Reg) (s : State), exec (.addR d a b) s = exec (.addR d b a) s) ∧
  (∀ (d a : Reg) (s : State), ∃ t, exec (.andI d a (-1#5)) s = .next t ∧
    exec (.addI d a 0#5) s = .next t ∧ t.reg d = s.reg a ∧ t.cc = setcc (s.reg a)) ∧
  (∀ (d a : Reg) (s : State), ∃ t u, exec (.notR d a) s = .next t ∧
    exec (.notR d d) t = .next u ∧ u.reg d = s.reg a ∧ u.cc = setcc (s.reg a))

/-- Negation is NOT then ADD #1, and subtraction is that and an ADD (R98, an inference of the spec). -/
def Obligations.NegationAndSubtraction : Prop :=
  ∀ (d a b : Reg) (s : State), ∃ t u v,
    exec (.notR d a) s = .next t ∧ exec (.addI d d 1#5) t = .next u ∧
    exec (.addR d b d) u = .next v ∧
    uint (u.reg d) = (65536 - uint (s.reg a)) % 65536 ∧
    (b ≠ d → v.reg d = s.reg b - s.reg a ∧ v.cc = setcc (s.reg b - s.reg a))

/-! ### LD -/

/-- LD with a backed target (R100): DR takes the word there, and nothing else changes, CC included. The
target is the advanced PC plus the signed offset modulo 2^16 (the modulus is decision D3, log entry 3). -/
def Obligations.LoadReadsTheBackedWord : Prop :=
  (∀ w : Word, w &&& 0xF000#16 = 0x2000#16 →
    ∃ d off9, decode w = .known (.ld d off9) ∧ d.index = uint w / 512 % 8 ∧
      uint off9 = uint w % 512) ∧
  ∀ (d : Reg) (off9 : BitVec 9) (s : State) (ea : Nat),
    (ea : Int) = ((uint s.pc : Int) + sint off9) % 65536 → ea < s.mem.capacity →
    ∃ t, exec (.ld d off9) s = .next t ∧ t.reg d = s.mem.read ea ∧
      KeptButRegAndCc d s t ∧ t.cc = s.cc

/-- LD with a target that is not backed (R101, decision D8, log entry 7): the status becomes
Faulted(AddressOutOfRange); registers, CC, memory and output are unchanged. -/
def Obligations.LoadOutsideMemoryFaults : Prop :=
  ∀ (d : Reg) (off9 : BitVec 9) (s : State) (ea : Nat),
    (ea : Int) = ((uint s.pc : Int) + sint off9) % 65536 → s.mem.capacity ≤ ea →
    ∃ t, exec (.ld d off9) s = .next t ∧ t.status = .faulted .addressOutOfRange ∧ DataKept s t

/-- R102: LD does not write CC, whatever its target, and ADD DR,DR,#0 after it sets CC from the loaded
value. -/
def Obligations.LoadLeavesTheConditionCode : Prop :=
  (∀ (d : Reg) (off9 : BitVec 9) (s : State), ∃ t, exec (.ld d off9) s = .next t ∧ t.cc = s.cc) ∧
  (∀ (d : Reg) (off9 : BitVec 9) (s : State), s.mem.backed (pcRelative off9 s) →
    ∃ t u, exec (.ld d off9) s = .next t ∧ exec (.addI d d 0#5) t = .next u ∧
      u.reg d = s.mem.read (uint (pcRelative off9 s)) ∧
      u.cc = setcc (s.mem.read (uint (pcRelative off9 s))))

/-- The wrap of the LD target (R103; decision D3, log entry 3): for an LD at address A let s be the integer
A + 1 + offset. A negative s wraps to 65536 + s, in 65281..65535; an s above 65535 needs A >= 65280 and
wraps to s - 65536; so with a capacity of at most 65281 the step of an LD whose s is negative faults,
and with capacity 65536 no LD faults. -/
def Obligations.LoadTargetWraps : Prop :=
  (∀ (s : State) (off9 : BitVec 9), (uint s.pc : Int) + 1 + sint off9 < 0 →
    (uint (s.pc + 1 + sext16 off9) : Int) = 65536 + ((uint s.pc : Int) + 1 + sint off9) ∧
    65281 ≤ uint (s.pc + 1 + sext16 off9)) ∧
  (∀ (s : State) (off9 : BitVec 9), 65535 < (uint s.pc : Int) + 1 + sint off9 →
    65280 ≤ uint s.pc ∧
    (uint (s.pc + 1 + sext16 off9) : Int) = (uint s.pc : Int) + 1 + sint off9 - 65536) ∧
  (∀ (s : State) (d : Reg) (off9 : BitVec 9), s.status = .running → s.mem.backed s.pc →
    decode (wordAtPc s) = .known (.ld d off9) → (uint s.pc : Int) + 1 + sint off9 < 0 →
    s.mem.capacity ≤ 65281 →
    ∃ t, step s = .next t ∧ t.status = .faulted .addressOutOfRange ∧ DataKept s t) ∧
  (∀ (s : State) (d : Reg) (off9 : BitVec 9), s.mem.capacity = 65536 →
    ∃ t, exec (.ld d off9) s = .next t ∧ t.status = s.status)

/-! ### BR -/

/-- BR (R105): its words are those of mask 0xF000 and match 0x0000; it is taken iff a requested flag is
the current CC, and then PC takes the advanced PC plus the signed offset, modulo 2^16 (decision D3, log
entry 3); otherwise PC stays. Under CC = U, and with mask 000, it is never taken (R108, an inference
of the spec). It completes in every state. -/
def Obligations.BranchTakenOnRequestedFlag : Prop :=
  (∀ w : Word, w &&& 0xF000#16 = 0x0000#16 →
    ∃ off9, decode w = .known (.br (w.getLsbD 11) (w.getLsbD 10) (w.getLsbD 9) off9) ∧
      uint off9 = uint w % 512) ∧
  (∀ (n z p : Bool) (off9 : BitVec 9) (s : State),
    (n = true ∧ s.cc = .n) ∨ (z = true ∧ s.cc = .z) ∨ (p = true ∧ s.cc = .p) →
    ∃ t, exec (.br n z p off9) s = .next t ∧
      (uint t.pc : Int) = ((uint s.pc : Int) + sint off9) % 65536 ∧
      t.ir = s.ir ∧ t.status = s.status ∧ DataKept s t) ∧
  (∀ (n z p : Bool) (off9 : BitVec 9) (s : State),
    ¬ ((n = true ∧ s.cc = .n) ∨ (z = true ∧ s.cc = .z) ∨ (p = true ∧ s.cc = .p)) →
    exec (.br n z p off9) s = .next s) ∧
  (∀ (n z p : Bool) (off9 : BitVec 9) (s : State), s.cc = .u → exec (.br n z p off9) s = .next s)

/-- R109: BR writes no register, no CC, no memory word and not the status (nor IR or the output), so it
saves no return address; with mask 000 it adds nothing to the advanced PC. -/
def Obligations.BranchWritesOnlyThePc : Prop :=
  (∀ (n z p : Bool) (off9 : BitVec 9) (s : State), ∃ t, exec (.br n z p off9) s = .next t ∧
    RegsKept s t ∧ t.cc = s.cc ∧ MemoryKept s t ∧ t.status = s.status ∧ t.ir = s.ir ∧
    t.out = s.out) ∧
  (∀ (off9 : BitVec 9) (s : State), ∃ t, exec (.br false false false off9) s = .next t ∧
    t.pc = s.pc)

/-- The step of a BR at address A (R106; decision D3, log entry 3): PC becomes A + 1 + the signed offset
modulo 2^16 when it is taken and A + 1 modulo 2^16 when not, with no further correction, and the
status stays Running. -/
def Obligations.BranchStepTarget : Prop :=
  ∀ (s : State) (n z p : Bool) (off9 : BitVec 9), s.status = .running → s.mem.backed s.pc →
    decode (wordAtPc s) = .known (.br n z p off9) →
    ∃ t, step s = .next t ∧ t.status = .running ∧ t.ir = wordAtPc s ∧ DataKept s t ∧
      (uint t.pc : Int) = ((uint s.pc : Int) + 1 +
        (if (n = true ∧ s.cc = .n) ∨ (z = true ∧ s.cc = .z) ∨ (p = true ∧ s.cc = .p)
         then sint off9 else 0)) % 65536

/-- A taken BR to a target that is not backed (R107, an inference of the spec; decision D3, log entry 3):
its own step does not fault, and the next step faults at the fetch, changing no register, CC or
memory word. -/
def Obligations.BranchToUnbackedTargetFaultsAtNextFetch : Prop :=
  ∀ (s : State) (n z p : Bool) (off9 : BitVec 9), s.status = .running → s.mem.backed s.pc →
    decode (wordAtPc s) = .known (.br n z p off9) → branchTaken n z p s.cc = true →
    s.mem.capacity ≤ uint (s.pc + 1 + sext16 off9) →
    ∃ t u, step s = .next t ∧ t.status = .running ∧ t.pc = s.pc + 1 + sext16 off9 ∧
      step t = .next u ∧ u.status = .faulted .addressOutOfRange ∧ DataKept s u

/-! ### TRAP -/

/-- TRAP HALT (R110): its words are those of mask 0xF0FF and match 0xF025; it sets the status to Halted,
in every state, and changes nothing else. That ir[11:8] is ignored is decision D5 (log entry 4). -/
def Obligations.TrapHaltHalts : Prop :=
  (∀ w : Word, w &&& 0xF0FF#16 = 0xF025#16 → decode w = .known .trapHalt) ∧
  ∀ s : State, ∃ t, exec .trapHalt s = .next t ∧ t.status = .halted ∧ t.pc = s.pc ∧
    t.ir = s.ir ∧ DataKept s t

/-- TRAP OUT (R112): its words are those of mask 0xF0FF and match 0xF021; it appends exactly one code,
the low 8 bits of R0, to the output, in every state, and changes nothing else. The source of the code
is decision D6 (log entry 5), the trace decision D13 (log entry 11), the ignored bits decision D5. -/
def Obligations.TrapOutEmitsTheLowByteOfR0 : Prop :=
  (∀ w : Word, w &&& 0xF0FF#16 = 0xF021#16 → decode w = .known .trapOut) ∧
  ∀ s : State, ∃ t c, exec .trapOut s = .next t ∧ t.out = s.out ++ [c] ∧
    uint c = uint (s.reg .r0) % 256 ∧ RegsKept s t ∧ t.cc = s.cc ∧ MemoryKept s t ∧
    t.pc = s.pc ∧ t.ir = s.ir ∧ t.status = s.status

/-- R115 and R116: neither TRAP service writes a register (R7 included), CC or memory, and neither reads
memory: with any other memory it does the same. The service runs inside the step, and after an OUT at
address A the next step fetches at A + 1. Both complete in every state: nothing is privileged. -/
def Obligations.TrapServicesAreBuiltIn : Prop :=
  (∀ (i : Instr) (s : State) (m : Memory), i = .trapHalt ∨ i = .trapOut →
    ∃ t, exec i s = .next t ∧ RegsKept s t ∧ t.cc = s.cc ∧ MemoryKept s t ∧ t.pc = s.pc ∧
      exec i (s.setMem m) = .next (t.setMem m)) ∧
  (∀ s : State, s.status = .running → s.mem.backed s.pc →
    decode (wordAtPc s) = .known .trapOut →
    ∃ t, step s = .next t ∧ t.status = .running ∧ t.pc = s.pc + 1)

/-- R114: a TRAP word whose vector is neither 0x25 nor 0x21 is Unknown, and its step raises
IllegalInstruction. -/
def Obligations.OtherTrapVectorsAreIllegal : Prop :=
  ∀ w : Word, uint w / 4096 = 15 → uint w % 256 ≠ 0x25 → uint w % 256 ≠ 0x21 →
    (∃ why, decode w = .unknown why) ∧
    ∀ s : State, s.status = .running → s.mem.backed s.pc → wordAtPc s = w →
      ∃ t, step s = .next t ∧ t.status = .faulted .illegalInstruction ∧ DataKept s t

/-! ### The engine -/

/-- A step runs the decoded instruction (R75, R79): when the word at a backed PC decodes to i, the step
of a Running state is exec of i on the state whose IR is the word and whose PC is one more, modulo 2^16
(the modulus is decision D3, log entry 3), all else as it was. -/
def Obligations.StepRunsTheDecodedInstruction : Prop :=
  ∀ (s : State) (i : Instr), s.status = .running → uint s.pc < s.mem.capacity →
    decode (s.mem.read (uint s.pc)) = .known i →
    step s = exec i { s with ir := s.mem.read (uint s.pc), pc := s.pc + 1 }

/-- The two faults that come before execute (R76, R78; decision D8, log entry 7): a fetch outside memory
is Faulted(AddressOutOfRange) and an Unknown word Faulted(IllegalInstruction); registers, CC, memory
and output are unchanged. Nothing is said of PC and IR, which no claim should read then (R84). -/
def Obligations.FetchAndDecodeFaults : Prop :=
  (∀ s : State, s.status = .running → s.mem.capacity ≤ uint s.pc →
    ∃ t, step s = .next t ∧ t.status = .faulted .addressOutOfRange ∧ DataKept s t) ∧
  (∀ (s : State) (why : UnknownWord), s.status = .running → uint s.pc < s.mem.capacity →
    decode (wordAtPc s) = .unknown why →
    ∃ t, step s = .next t ∧ t.status = .faulted .illegalInstruction ∧ DataKept s t)

/-- R123: raising a fault sets the status to Faulted(reason) and saves or changes nothing else, and no
further step is enabled. -/
def Obligations.FaultEntryChangesTheStatusOnly : Prop :=
  ∀ (reason : FaultReason) (s : State),
    (raiseFault reason s).status = .faulted reason ∧ DataKept s (raiseFault reason s) ∧
    (raiseFault reason s).pc = s.pc ∧ (raiseFault reason s).ir = s.ir ∧
    ∀ t, step (raiseFault reason s) ≠ .next t

/-- R120: a step of a Running engine faults with a reason exactly when a row of the fault table says so:
the fetch address or the LD target is not backed, or the word is Unknown. Nothing else faults. -/
def Obligations.StepFaultsExactlyAsTheTableSays : Prop :=
  ∀ (s t : State), step s = .next t → ∀ reason,
    t.status = .faulted reason ↔ CausesFault s reason

/-- A step that faults changes no register, no CC, no memory word and no output (R84, R124; decision D8,
log entry 7), and it has exactly one reason (R83, an inference of the spec). -/
def Obligations.FaultingStepKeepsData : Prop :=
  (∀ (s t : State) (reason : FaultReason), step s = .next t → t.status = .faulted reason →
    DataKept s t) ∧
  (∀ (s : State) (a b : FaultReason), CausesFault s a → CausesFault s b → a = b)

/-- R29: a step is enabled exactly in Running; Halted is entered only by TRAP HALT and Faulted only by
the faults of R120; both are terminal; the reset value is Running. -/
def Obligations.StatusIsEnteredAsTheRulesSay : Prop :=
  (∀ s : State, (∃ t, step s = .next t) ↔ s.status = .running) ∧
  (∀ s t : State, step s = .next t →
    (t.status = .halted ↔ s.mem.backed s.pc ∧ decode (wordAtPc s) = .known .trapHalt)) ∧
  (∀ (s t : State) (reason : FaultReason), step s = .next t → t.status = .faulted reason →
    CausesFault s reason) ∧
  State.reset.status = .running

/-- R126: Halted and Faulted are terminal: no step, no run, no call of the step port and no load leaves
them, and opcode 8 is no return instruction but an illegal word. -/
def Obligations.TerminalStatesAreNeverLeft : Prop :=
  (∀ s : State, Final s → (∀ t, step s ≠ .next t) ∧ (stepPort s).status = s.status ∧
    (∀ k, (runFor k s).status = s.status) ∧
    ∀ (a : Int) (w : Word), (afterLoad a w s).status = s.status) ∧
  (∀ w : Word, uint w / 4096 = 8 → ∃ why, decode w = .unknown why)

/-- Progress (R149, an inference of the spec; R82, decision D9, log entries 8 and 10): every instruction
answers a next state in every state, a step of a Running engine always answers a next state, and in
Halted and Faulted the answer is no state but the model's name for 'no step is enabled', and a call of
the step port then changes nothing. -/
def Obligations.RunningStepsAlwaysComplete : Prop :=
  (∀ (i : Instr) (s : State), ∃ t, exec i s = .next t) ∧
  (∀ s : State, s.status = .running → ∃ t, step s = .next t) ∧
  (∀ s : State, s.status = .halted → step s = .fault .noStepWhenHalted ∧ stepPort s = s) ∧
  (∀ (s : State) (reason : FaultReason), s.status = .faulted reason →
    step s = .fault (.noStepWhenFaulted reason) ∧ stepPort s = s)

/-- The run loop (R85, R86; the budget is decision D14, log entry 22). R85: while the status is Running
the run repeats the step, each call of the port taking the state the step answers; in a final state it
stops and keeps the state whole. A run of m + k steps is a run of m steps and then one of k. R86: a run
ends in at most one state; one that starts Running ends by the step of some Running state on its way,
and that step is a TRAP HALT into Halted or a fault of R120 into Faulted with its reason; the end is
Halted or Faulted; a run hangs exactly when it has no end; and BRnzp #-1 hangs once CC is set. -/
def Obligations.RunEndsInOneStateOrHangs : Prop :=
  (∀ s : State, runFor 0 s = s) ∧
  (∀ s t : State, step s = .next t → stepPort s = t ∧ ∀ k, runFor (k + 1) s = runFor k t) ∧
  (∀ s : State, Final s → ∀ k, runFor k s = s) ∧
  (∀ (m k : Nat) (s : State), runFor (m + k) s = runFor k (runFor m s)) ∧
  (∀ s t u : State, RunEndsIn s t → RunEndsIn s u → t = u) ∧
  (∀ s t : State, s.status = .running → RunEndsIn s t →
    ∃ k u, runFor k s = u ∧ u.status = .running ∧ step u = .next t ∧
      ((u.mem.backed u.pc ∧ decode (wordAtPc u) = .known .trapHalt ∧ t.status = .halted) ∨
       ∃ reason, CausesFault u reason ∧ t.status = .faulted reason)) ∧
  (∀ s t : State, RunEndsIn s t → GoodEnd t ∨ BadEnd t) ∧
  (∀ s : State, Hangs s ↔ ¬ ∃ t, RunEndsIn s t) ∧
  (∀ s : State, s.status = .running → s.mem.backed s.pc →
    decode (wordAtPc s) = .known (.br true true true (-1#9)) → s.cc ≠ .u → Hangs s)

/-- Running off the end (R87, an inference of the spec): from a Running state whose words from PC to the
end of a memory of less than 65536 words are all zero, each step advances PC by one and changes no
register, CC, memory word or output, until the fetch at MEM_CAPACITY faults. -/
def Obligations.ZeroFilledMemoryRunsOffTheEnd : Prop :=
  ∀ (s : State) (n : Nat), s.status = .running → s.mem.capacity < 65536 →
    uint s.pc + n = s.mem.capacity →
    (∀ a, uint s.pc ≤ a → a < s.mem.capacity → s.mem.read a = 0x0000#16) →
    (∀ k, k ≤ n → (runFor k s).status = .running ∧ uint (runFor k s).pc = uint s.pc + k ∧
      DataKept s (runFor k s)) ∧
    (runFor (n + 1) s).status = .faulted .addressOutOfRange ∧ DataKept s (runFor (n + 1) s)

/-! ### Whole-machine rules -/

/-- PC changes only by the fetch-advance, which adds 1, and by a taken BR, which writes the branch target
computed from the advanced PC; no port writes it (R23). What the target is, the advanced PC plus the
signed offset, is R106's, and that both sums are modulo 2^16 is decision D3 (R24, R77, R106; log entry
3). The PC of a faulted state is not read (R84). -/
def Obligations.PcChangesOnlyByAdvanceAndBranch : Prop :=
  (∀ (i : Instr) (s t : State), exec i s = .next t → t.pc ≠ s.pc →
    ∃ n z p off9, i = .br n z p off9 ∧ branchTaken n z p s.cc = true ∧
      t.pc = s.pc + sext16 off9) ∧
  (∀ (s t : State), step s = .next t → (∀ reason, t.status ≠ .faulted reason) →
    t.pc = s.pc + 1 ∨
    ∃ n z p off9, decode (wordAtPc s) = .known (.br n z p off9) ∧
      branchTaken n z p s.cc = true ∧ t.pc = s.pc + 1 + sext16 off9) ∧
  (∀ (s : State) (a : Int) (w : Word), (afterLoad a w s).pc = s.pc)

/-- Every register but the destination is kept by every instruction that completes, and an instruction
with no destination keeps them all (R21; that TRAP OUT reads R0 is decision D6, log entry 5, and plays
no part here); memory is kept by every instruction, word by word. -/
def Obligations.RegisterFrameOfEveryInstruction : Prop :=
  ∀ (i : Instr) (s : State), ∃ t, exec i s = .next t ∧ MemoryKept s t ∧
    ∀ r, destReg i ≠ some r → t.reg r = s.reg r

/-- IR is written by the fetch only, with the fetched word, and no instruction reads it (R25; the read
clause holds for every value of IR, so nothing rests on its reset value, decision D20, log entry 12).
The IR of a faulted state is not read. -/
def Obligations.IrIsTheFetchedWord : Prop :=
  (∀ s t : State, step s = .next t → (∀ reason, t.status ≠ .faulted reason) →
    t.ir = wordAtPc s) ∧
  (∀ (i : Instr) (s t : State) (v : Word), exec i s = .next t →
    exec i (s.setIr v) = .next (t.setIr v))

/-- R30: no instruction reads the status: with any other status it gives the same registers, PC, IR, CC,
memory and output; the status decides whether a next step exists, and the host reads it through the
inspection port. -/
def Obligations.StatusIsReadByNoInstruction : Prop :=
  (∀ (i : Instr) (s t : State) (x : Status), exec i s = .next t →
    ∃ u, exec i (s.setStatus x) = .next u ∧ u.regs = t.regs ∧ u.pc = t.pc ∧ u.ir = t.ir ∧
      u.cc = t.cc ∧ u.mem = t.mem ∧ u.out = t.out) ∧
  (∀ s : State, (∃ t, step s = .next t) ↔ inspectStatus s = .running) ∧
  (∀ (s : State) (x : Status), inspectStatus (s.setStatus x) = x)

/-- The output only grows (R31; decisions D6 and D13, log entries 5 and 11): a step appends one code
exactly when its instruction is TRAP OUT and none otherwise, a whole run only appends, and no
instruction reads the trace. -/
def Obligations.OutputTraceOnlyGrows : Prop :=
  (∀ s t : State, step s = .next t →
    if s.mem.backed s.pc ∧ decode (wordAtPc s) = .known .trapOut
    then ∃ c, t.out = s.out ++ [c] else t.out = s.out) ∧
  (∀ (k : Nat) (s : State), ∃ codes, (runFor k s).out = s.out ++ codes) ∧
  (∀ (i : Instr) (s t : State) (o : List CharCode), exec i s = .next t →
    ∃ u codes, exec i { s with out := o } = .next u ∧ u = { t with out := o ++ codes } ∧
      t.out = s.out ++ codes)

/-- R44: MemWrite gives its word to its address and changes no other; only the load port performs it, on
a backed address: no instruction and no run writes memory. -/
def Obligations.OnlyTheLoadPortWritesMemory : Prop :=
  (∀ (s : State) (a : Nat) (w : Word), a < s.mem.capacity →
    ∃ t, loadPort a w s = .ok t ∧ t.mem.capacity = s.mem.capacity ∧
      ∀ b, t.mem.read b = if b = a then w else s.mem.read b) ∧
  (∀ (s : State) (a : Int) (w : Word), a < 0 ∨ (s.mem.capacity : Int) ≤ a →
    loadPort a w s = .error .rangeError) ∧
  (∀ (i : Instr) (s t : State), exec i s = .next t → t.mem = s.mem) ∧
  (∀ (k : Nat) (s : State), (runFor k s).mem = s.mem)

/-- R42: a read of a backed address returns the word there, and one at or above MEM_CAPACITY is
AddressOutOfRange, for the fetch and for LD. -/
def Obligations.MemoryReadIsBoundsChecked : Prop :=
  (∀ (m : Memory) (a : Word), uint a < m.capacity → memRead m a = some (m.read (uint a))) ∧
  (∀ (m : Memory) (a : Word), m.capacity ≤ uint a → memRead m a = none) ∧
  (∀ s : State, s.status = .running → s.mem.capacity ≤ uint s.pc →
    ∃ t, step s = .next t ∧ t.status = .faulted .addressOutOfRange) ∧
  (∀ (d : Reg) (off9 : BitVec 9) (s : State), s.mem.capacity ≤ uint (pcRelative off9 s) →
    ∃ t, exec (.ld d off9) s = .next t ∧ t.status = .faulted .addressOutOfRange)

/-! ### Ports, launch and reset -/

/-- The load port and the inspection port on memory (R33, R36; decisions D10, D11, D12, log entries 9
and 16): an integer address in 0..capacity-1 is accepted, any other answers RangeError and changes no
state; an accepted load changes memory only; inspection reads the word. -/
def Obligations.PortsRefuseAddressesOutsideMemory : Prop :=
  (∀ (s : State) (a : Int) (w : Word), 0 ≤ a → a < s.mem.capacity →
    ∃ t, loadPort a w s = .ok t ∧ inspectMem a t = .ok w ∧ RegsKept s t ∧ t.pc = s.pc ∧
      t.ir = s.ir ∧ t.cc = s.cc ∧ t.status = s.status ∧ t.out = s.out ∧
      ∀ b : Int, b ≠ a → inspectMem b t = inspectMem b s) ∧
  (∀ (s : State) (a : Int) (w : Word), a < 0 ∨ (s.mem.capacity : Int) ≤ a →
    loadPort a w s = .error .rangeError ∧ afterLoad a w s = s ∧
    inspectMem a s = .error .rangeError)

/-- The launch state (R141, decision D10, log entry 9): an address reads as the last accepted load to it,
or zero; the loads that count are those inside the memory; nothing else differs from reset; and with a
capacity the spec allows the memory is canonical. -/
def Obligations.LaunchMemoryIsTheLastLoads : Prop :=
  ∀ (capacity : Nat) (init : RegInit) (loads : List (Int × Word)),
    (∀ a : Nat, a < capacity →
      (launchState capacity init loads).mem.read a
        = ((loads.reverse.find? (fun l => l.1 = (a : Int))).map (fun l => l.2)).getD 0x0000#16) ∧
    (launchState capacity init loads).setMem (Memory.mk capacity [])
      = State.resetWith capacity init ∧
    (1 ≤ capacity → capacity ≤ 65536 → (launchState capacity init loads).mem.wf)

/-- The reset state (R140; the registers' zero is decision D2, log entry 2, IR's is decision D20, log
entry 12, the capacity 50 is decision D1, log entry 1). -/
def Obligations.ResetStateValues : Prop :=
  State.reset.status = .running ∧ State.reset.pc = 0x0000#16 ∧ State.reset.ir = 0x0000#16 ∧
  (∀ r, State.reset.reg r = 0x0000#16) ∧ State.reset.cc = .u ∧ State.reset.mem.capacity = 50 ∧
  (∀ a, State.reset.mem.read a = 0x0000#16) ∧ State.reset.out = [] ∧
  (∀ (n : Nat) (r : Reg), (State.resetWith n .index).reg r = BitVec.ofNat 16 r.index)

/-! ### Invariants -/

/-- The invariant holds at reset, and at reset with any parameters the spec allows (R8). -/
def Obligations.ResetMeetsTheInvariant : Prop :=
  State.reset.Inv ∧
  ∀ (n : Nat) (init : RegInit), 1 ≤ n → n ≤ 65536 → (State.resetWith n init).Inv

/-- Every step keeps the invariant, from every state that meets it: memory stays in its canonical form
and within a capacity the spec allows, and a Halted state's IR holds a TRAP HALT word. -/
def Obligations.EveryStepKeepsTheInvariant : Prop :=
  ∀ s t : State, s.Inv → step s = .next t → t.Inv

/-- The canonical form is canonical: two well-formed memories of one capacity that read the same at every
address are the same data (log entry 13). -/
def Obligations.CanonicalMemoriesAreEqualWhenTheyReadEqual : Prop :=
  ∀ m n : Memory, m.wf → n.wf → m.capacity = n.capacity → (∀ a, m.read a = n.read a) → m = n

/-- Once written, CC is N, Z or P for the rest of the run (R26, decision D7, log entry 6): every ADD, AND
and NOT leaves it so, whatever it was, and no step of a run makes it U again. -/
def Obligations.ConditionCodeOnceSetStaysSet : Prop :=
  (∀ (i : Instr) (s t : State), aluDest i ≠ none → exec i s = .next t → t.cc ≠ .u) ∧
  (∀ (k : Nat) (s : State), s.cc ≠ .u → (runFor k s).cc ≠ .u)
end

