-- ==== Sys2Proof/Laws/Decode.lean ====
section
/-! SUPPORT. The fields of a word as arithmetic on its unsigned value, and one lemma per instruction that
says which words decode to it: the lemmas to cite instead of unfolding `decode`. -/

namespace Sys2Proof

/-! ### Registers as fields -/

@[simp] theorem Reg.ofBits_toBits (r : Reg) : Reg.ofBits r.toBits = r := by cases r <;> rfl

@[simp] theorem Reg.index_ofBits (b : BitVec 3) : (Reg.ofBits b).index = b.toNat := by
  revert b; decide

@[simp] theorem Reg.toNat_toBits (r : Reg) : r.toBits.toNat = r.index := by cases r <;> rfl

theorem Reg.index_lt (r : Reg) : r.index < 8 := by cases r <;> decide

theorem Reg.index_injective {r q : Reg} (h : r.index = q.index) : r = q := by
  cases r <;> cases q <;> first | rfl | exact absurd h (by decide)

/-! ### Fields as arithmetic (R57) -/

theorem opcodeField_toNat (w : Word) : (opcodeField w).toNat = w.toNat / 4096 := by
  simp only [opcodeField, bits, BitVec.extractLsb_toNat, Nat.shiftRight_eq_div_pow]
  have := w.isLt
  omega

theorem drField_index (w : Word) : (drField w).index = w.toNat / 512 % 8 := by
  rw [drField, Reg.index_ofBits]
  simp [bits, BitVec.extractLsb_toNat, Nat.shiftRight_eq_div_pow]

theorem sr1Field_index (w : Word) : (sr1Field w).index = w.toNat / 64 % 8 := by
  rw [sr1Field, Reg.index_ofBits]
  simp [bits, BitVec.extractLsb_toNat, Nat.shiftRight_eq_div_pow]

theorem sr2Field_index (w : Word) : (sr2Field w).index = w.toNat % 8 := by
  rw [sr2Field, Reg.index_ofBits]
  simp [bits, BitVec.extractLsb_toNat]

theorem imm5Field_toNat (w : Word) : (imm5Field w).toNat = w.toNat % 32 := by
  simp [imm5Field, bits, BitVec.extractLsb_toNat]

theorem off9Field_toNat (w : Word) : (off9Field w).toNat = w.toNat % 512 := by
  simp [off9Field, bits, BitVec.extractLsb_toNat]

theorem trapVectorField_toNat (w : Word) : (trapVectorField w).toNat = w.toNat % 256 := by
  simp [trapVectorField, bits, BitVec.extractLsb_toNat]

theorem modeField_eq (w : Word) : modeField w = decide (w.toNat / 32 % 2 = 1) := by
  simp [modeField, BitVec.getLsbD, Nat.testBit, Nat.shiftRight_eq_div_pow]
  rw [Bool.eq_iff_iff]
  simp

/-! ### Which words decode to an instruction (R69) -/

theorem decode_eq_br {w : Word} {n z p : Bool} {o : BitVec 9} :
    decode w = .known (.br n z p o) ↔
      opcodeField w = 0x0#4 ∧ w.getLsbD 11 = n ∧ w.getLsbD 10 = z ∧ w.getLsbD 9 = p ∧
        off9Field w = o := by
  unfold decode
  split_ifs with h0 h1 h2 h3 h4 h5 h6 h7 h8 <;> simp_all

theorem decode_eq_addI {w : Word} {d a : Reg} {m : BitVec 5} :
    decode w = .known (.addI d a m) ↔
      opcodeField w = 0x1#4 ∧ modeField w = true ∧ drField w = d ∧ sr1Field w = a ∧
        imm5Field w = m := by
  unfold decode
  split_ifs with h0 h1 h2 h3 h4 h5 h6 h7 h8 <;> simp_all

theorem decode_eq_addR {w : Word} {d a b : Reg} :
    decode w = .known (.addR d a b) ↔
      opcodeField w = 0x1#4 ∧ modeField w = false ∧ drField w = d ∧ sr1Field w = a ∧
        sr2Field w = b := by
  unfold decode
  split_ifs with h0 h1 h2 h3 h4 h5 h6 h7 h8 <;> simp_all

theorem decode_eq_ld {w : Word} {d : Reg} {o : BitVec 9} :
    decode w = .known (.ld d o) ↔ opcodeField w = 0x2#4 ∧ drField w = d ∧ off9Field w = o := by
  unfold decode
  split_ifs with h0 h1 h2 h3 h4 h5 h6 h7 h8 <;> simp_all

theorem decode_eq_andI {w : Word} {d a : Reg} {m : BitVec 5} :
    decode w = .known (.andI d a m) ↔
      opcodeField w = 0x5#4 ∧ modeField w = true ∧ drField w = d ∧ sr1Field w = a ∧
        imm5Field w = m := by
  unfold decode
  split_ifs with h0 h1 h2 h3 h4 h5 h6 h7 h8 <;> simp_all

theorem decode_eq_andR {w : Word} {d a b : Reg} :
    decode w = .known (.andR d a b) ↔
      opcodeField w = 0x5#4 ∧ modeField w = false ∧ drField w = d ∧ sr1Field w = a ∧
        sr2Field w = b := by
  unfold decode
  split_ifs with h0 h1 h2 h3 h4 h5 h6 h7 h8 <;> simp_all

theorem decode_eq_notR {w : Word} {d a : Reg} :
    decode w = .known (.notR d a) ↔ opcodeField w = 0x9#4 ∧ drField w = d ∧ sr1Field w = a := by
  unfold decode
  split_ifs with h0 h1 h2 h3 h4 h5 h6 h7 h8 <;> simp_all

theorem decode_eq_trapHalt {w : Word} :
    decode w = .known .trapHalt ↔ opcodeField w = 0xF#4 ∧ trapVectorField w = 0x25#8 := by
  unfold decode
  split_ifs with h0 h1 h2 h3 h4 h5 h6 h7 h8 <;> simp_all

theorem decode_eq_trapOut {w : Word} :
    decode w = .known .trapOut ↔ opcodeField w = 0xF#4 ∧ trapVectorField w = 0x21#8 := by
  unfold decode
  split_ifs with h0 h1 h2 h3 h4 h5 h6 h7 h8 <;> simp_all

/-- The words no instruction has (R66). -/
theorem decode_eq_unknown {w : Word} :
    (∃ why, decode w = .unknown why) ↔
      (opcodeField w = 0xF#4 ∧ trapVectorField w ≠ 0x25#8 ∧ trapVectorField w ≠ 0x21#8) ∨
      (opcodeField w ≠ 0x0#4 ∧ opcodeField w ≠ 0x1#4 ∧ opcodeField w ≠ 0x2#4 ∧
        opcodeField w ≠ 0x5#4 ∧ opcodeField w ≠ 0x9#4 ∧ opcodeField w ≠ 0xF#4) := by
  unfold decode
  split_ifs with h0 h1 h2 h3 h4 h5 h6 h7 h8 <;> simp_all

end Sys2Proof
end

