-- ==== Sys2Proof/Laws/State.lean ====
section
/-! SUPPORT. One lemma per field per update of State, so that no later proof unfolds a record update;
and what a register reads after each update. -/

namespace Sys2Proof.Machine

/-! ### setReg -/

@[simp] theorem State.setReg_regs (r : Reg) (v : Word) (s : State) : (s.setReg r v).regs = s.regs.set r v := rfl
@[simp] theorem State.setReg_pc (r : Reg) (v : Word) (s : State) : (s.setReg r v).pc = s.pc := rfl
@[simp] theorem State.setReg_ir (r : Reg) (v : Word) (s : State) : (s.setReg r v).ir = s.ir := rfl
@[simp] theorem State.setReg_cc (r : Reg) (v : Word) (s : State) : (s.setReg r v).cc = s.cc := rfl
@[simp] theorem State.setReg_mem (r : Reg) (v : Word) (s : State) : (s.setReg r v).mem = s.mem := rfl
@[simp] theorem State.setReg_status (r : Reg) (v : Word) (s : State) : (s.setReg r v).status = s.status := rfl
@[simp] theorem State.setReg_out (r : Reg) (v : Word) (s : State) : (s.setReg r v).out = s.out := rfl

/-! ### setPc -/

@[simp] theorem State.setPc_regs (v : Word) (s : State) : (s.setPc v).regs = s.regs := rfl
@[simp] theorem State.setPc_pc (v : Word) (s : State) : (s.setPc v).pc = v := rfl
@[simp] theorem State.setPc_ir (v : Word) (s : State) : (s.setPc v).ir = s.ir := rfl
@[simp] theorem State.setPc_cc (v : Word) (s : State) : (s.setPc v).cc = s.cc := rfl
@[simp] theorem State.setPc_mem (v : Word) (s : State) : (s.setPc v).mem = s.mem := rfl
@[simp] theorem State.setPc_status (v : Word) (s : State) : (s.setPc v).status = s.status := rfl
@[simp] theorem State.setPc_out (v : Word) (s : State) : (s.setPc v).out = s.out := rfl
@[simp] theorem State.setPc_reg (v : Word) (q : Reg) (s : State) : (s.setPc v).reg q = s.reg q := rfl

/-! ### setIr -/

@[simp] theorem State.setIr_regs (v : Word) (s : State) : (s.setIr v).regs = s.regs := rfl
@[simp] theorem State.setIr_pc (v : Word) (s : State) : (s.setIr v).pc = s.pc := rfl
@[simp] theorem State.setIr_ir (v : Word) (s : State) : (s.setIr v).ir = v := rfl
@[simp] theorem State.setIr_cc (v : Word) (s : State) : (s.setIr v).cc = s.cc := rfl
@[simp] theorem State.setIr_mem (v : Word) (s : State) : (s.setIr v).mem = s.mem := rfl
@[simp] theorem State.setIr_status (v : Word) (s : State) : (s.setIr v).status = s.status := rfl
@[simp] theorem State.setIr_out (v : Word) (s : State) : (s.setIr v).out = s.out := rfl
@[simp] theorem State.setIr_reg (v : Word) (q : Reg) (s : State) : (s.setIr v).reg q = s.reg q := rfl

/-! ### setCc -/

@[simp] theorem State.setCc_regs (c : CC) (s : State) : (s.setCc c).regs = s.regs := rfl
@[simp] theorem State.setCc_pc (c : CC) (s : State) : (s.setCc c).pc = s.pc := rfl
@[simp] theorem State.setCc_ir (c : CC) (s : State) : (s.setCc c).ir = s.ir := rfl
@[simp] theorem State.setCc_cc (c : CC) (s : State) : (s.setCc c).cc = c := rfl
@[simp] theorem State.setCc_mem (c : CC) (s : State) : (s.setCc c).mem = s.mem := rfl
@[simp] theorem State.setCc_status (c : CC) (s : State) : (s.setCc c).status = s.status := rfl
@[simp] theorem State.setCc_out (c : CC) (s : State) : (s.setCc c).out = s.out := rfl
@[simp] theorem State.setCc_reg (c : CC) (q : Reg) (s : State) : (s.setCc c).reg q = s.reg q := rfl

/-! ### setStatus -/

@[simp] theorem State.setStatus_regs (x : Status) (s : State) : (s.setStatus x).regs = s.regs := rfl
@[simp] theorem State.setStatus_pc (x : Status) (s : State) : (s.setStatus x).pc = s.pc := rfl
@[simp] theorem State.setStatus_ir (x : Status) (s : State) : (s.setStatus x).ir = s.ir := rfl
@[simp] theorem State.setStatus_cc (x : Status) (s : State) : (s.setStatus x).cc = s.cc := rfl
@[simp] theorem State.setStatus_mem (x : Status) (s : State) : (s.setStatus x).mem = s.mem := rfl
@[simp] theorem State.setStatus_status (x : Status) (s : State) : (s.setStatus x).status = x := rfl
@[simp] theorem State.setStatus_out (x : Status) (s : State) : (s.setStatus x).out = s.out := rfl
@[simp] theorem State.setStatus_reg (x : Status) (q : Reg) (s : State) : (s.setStatus x).reg q = s.reg q := rfl

/-! ### setMem -/

@[simp] theorem State.setMem_regs (m : Memory) (s : State) : (s.setMem m).regs = s.regs := rfl
@[simp] theorem State.setMem_pc (m : Memory) (s : State) : (s.setMem m).pc = s.pc := rfl
@[simp] theorem State.setMem_ir (m : Memory) (s : State) : (s.setMem m).ir = s.ir := rfl
@[simp] theorem State.setMem_cc (m : Memory) (s : State) : (s.setMem m).cc = s.cc := rfl
@[simp] theorem State.setMem_mem (m : Memory) (s : State) : (s.setMem m).mem = m := rfl
@[simp] theorem State.setMem_status (m : Memory) (s : State) : (s.setMem m).status = s.status := rfl
@[simp] theorem State.setMem_out (m : Memory) (s : State) : (s.setMem m).out = s.out := rfl
@[simp] theorem State.setMem_reg (m : Memory) (q : Reg) (s : State) : (s.setMem m).reg q = s.reg q := rfl

/-! ### emit -/

@[simp] theorem State.emit_regs (c : CharCode) (s : State) : (s.emit c).regs = s.regs := rfl
@[simp] theorem State.emit_pc (c : CharCode) (s : State) : (s.emit c).pc = s.pc := rfl
@[simp] theorem State.emit_ir (c : CharCode) (s : State) : (s.emit c).ir = s.ir := rfl
@[simp] theorem State.emit_cc (c : CharCode) (s : State) : (s.emit c).cc = s.cc := rfl
@[simp] theorem State.emit_mem (c : CharCode) (s : State) : (s.emit c).mem = s.mem := rfl
@[simp] theorem State.emit_status (c : CharCode) (s : State) : (s.emit c).status = s.status := rfl
@[simp] theorem State.emit_out (c : CharCode) (s : State) : (s.emit c).out = s.out ++ [c] := rfl
@[simp] theorem State.emit_reg (c : CharCode) (q : Reg) (s : State) : (s.emit c).reg q = s.reg q := rfl

/-! ### Registers: a register reads what was last written to it, and no register is another's alias -/

@[simp] theorem RegFile.get_set_same (f : RegFile) (r : Reg) (v : Word) : (f.set r v).get r = v := by
  cases r <;> rfl

theorem RegFile.get_set_ne (f : RegFile) {r q : Reg} (v : Word) (h : q ≠ r) :
    (f.set r v).get q = f.get q := by
  cases r <;> cases q <;> first | rfl | exact absurd rfl h

@[simp] theorem State.setReg_reg_same (r : Reg) (v : Word) (s : State) : (s.setReg r v).reg r = v :=
  RegFile.get_set_same s.regs r v

@[simp] theorem State.setReg_reg_ne {r q : Reg} (v : Word) (s : State) (h : q ≠ r) :
    (s.setReg r v).reg q = s.reg q :=
  RegFile.get_set_ne s.regs v h

/-- Two register files with the same readings are equal. -/
theorem RegFile.ext_get {f g : RegFile} (h : ∀ r, f.get r = g.get r) : f = g := by
  obtain ⟨a0, a1, a2, a3, a4, a5, a6, a7⟩ := f
  obtain ⟨b0, b1, b2, b3, b4, b5, b6, b7⟩ := g
  have h0 := h .r0; have h1 := h .r1; have h2 := h .r2; have h3 := h .r3
  have h4 := h .r4; have h5 := h .r5; have h6 := h .r6; have h7 := h .r7
  simp only [RegFile.get] at h0 h1 h2 h3 h4 h5 h6 h7
  simp only [h0, h1, h2, h3, h4, h5, h6, h7]

end Sys2Proof.Machine
end

