-- ==== Sys2Proof/Laws/Ops.lean ====
section
/-! SUPPORT. What the shared operations of Machine/Ops.lean do: the memory laws (read after write, the
canonical form kept), the bounds check, fetch-advance and fault entry. -/

namespace Sys2Proof.Machine

/-! ### Cells -/

theorem readCells_dropCell (a b : Nat) (cells : List (Nat × Word)) :
    readCells (dropCell a cells) b = if b = a then unlistedWord else readCells cells b := by
  induction cells with
  | nil => simp [dropCell, readCells]
  | cons c rest ih =>
    obtain ⟨d, u⟩ := c
    have ih' : readCells (rest.filter (fun c => c.1 ≠ a)) b
        = if b = a then unlistedWord else readCells rest b := ih
    by_cases hda : d = a
    · subst hda
      have hdrop : dropCell d ((d, u) :: rest) = rest.filter (fun c => c.1 ≠ d) := by
        simp [dropCell]
      rw [hdrop, ih']
      by_cases hb : b = d <;> simp [readCells, hb]
    · have hdrop : dropCell a ((d, u) :: rest) = (d, u) :: rest.filter (fun c => c.1 ≠ a) := by
        simp [dropCell, hda]
      rw [hdrop]
      simp only [readCells, ih']
      by_cases hb : b = d
      · subst hb; simp [hda]
      · simp [hb]

theorem readCells_insertCell (a : Nat) (v : Word) (b : Nat) (cells : List (Nat × Word))
    (h : ∀ c ∈ cells, c.1 ≠ a) :
    readCells (insertCell a v cells) b = if b = a then v else readCells cells b := by
  induction cells with
  | nil => simp [insertCell, readCells]
  | cons c rest ih =>
    obtain ⟨d, u⟩ := c
    have hda : d ≠ a := h (d, u) (by simp)
    have ih' := ih (fun c hc => h c (List.mem_cons_of_mem _ hc))
    by_cases had : a < d
    · simp [insertCell, had, readCells]
    · simp only [insertCell, had, if_false, readCells, ih']
      by_cases hb : b = d
      · subst hb; simp [hda]
      · simp [hb]

theorem dropCell_ne (a : Nat) (cells : List (Nat × Word)) : ∀ c ∈ dropCell a cells, c.1 ≠ a := by
  intro c hc
  simpa [dropCell] using (List.mem_filter.mp hc).2

theorem readCells_writeCells (a : Nat) (v : Word) (b : Nat) (cells : List (Nat × Word)) :
    readCells (writeCells a v cells) b = if b = a then v else readCells cells b := by
  by_cases hv : v = unlistedWord
  · simp [writeCells, hv, readCells_dropCell]
  · rw [writeCells, if_neg hv, readCells_insertCell _ _ _ _ (dropCell_ne a cells), readCells_dropCell]
    by_cases hb : b = a <;> simp [hb]

theorem mem_insertCell {a : Nat} {v : Word} {cells : List (Nat × Word)} {c : Nat × Word}
    (h : c ∈ insertCell a v cells) : c = (a, v) ∨ c ∈ cells := by
  induction cells with
  | nil => simpa [insertCell] using h
  | cons d rest ih =>
    obtain ⟨b, u⟩ := d
    by_cases hab : a < b
    · simpa [insertCell, hab] using h
    · simp only [insertCell, hab, if_false, List.mem_cons] at h ⊢
      rcases h with h | h
      · exact .inr (.inl h)
      · rcases ih h with h | h
        · exact .inl h
        · exact .inr (.inr h)

theorem sorted_insertCell (a : Nat) (v : Word) (cells : List (Nat × Word))
    (hs : cells.Pairwise (fun x y => x.1 < y.1)) (ha : ∀ c ∈ cells, c.1 ≠ a) :
    (insertCell a v cells).Pairwise (fun x y => x.1 < y.1) := by
  induction cells with
  | nil => simp [insertCell]
  | cons d rest ih =>
    obtain ⟨b, u⟩ := d
    have hba : b ≠ a := ha (b, u) (by simp)
    obtain ⟨hb, hrest⟩ := List.pairwise_cons.mp hs
    by_cases hab : a < b
    · simp only [insertCell, hab, if_true]
      refine List.pairwise_cons.mpr ⟨fun c hc => ?_, hs⟩
      rcases List.mem_cons.mp hc with rfl | hc
      · exact hab
      · exact lt_trans hab (hb c hc)
    · simp only [insertCell, hab, if_false]
      refine List.pairwise_cons.mpr
        ⟨fun c hc => ?_, ih hrest (fun c hc => ha c (List.mem_cons_of_mem _ hc))⟩
      rcases mem_insertCell hc with rfl | hc
      · exact lt_of_le_of_ne (not_lt.mp hab) hba
      · exact hb c hc

/-! ### Memory (R42 to R44) -/

@[simp] theorem Memory.write_capacity (m : Memory) (a : Nat) (v : Word) :
    (m.write a v).capacity = m.capacity := rfl

/-- A write gives its word to its address and leaves every other address alone. -/
theorem Memory.read_write (m : Memory) (a : Nat) (v : Word) (b : Nat) :
    (m.write a v).read b = if b = a then v else m.read b :=
  readCells_writeCells a v b m.cells

@[simp] theorem Memory.read_write_same (m : Memory) (a : Nat) (v : Word) :
    (m.write a v).read a = v := by
  simp [Memory.read_write]

@[simp] theorem Memory.read_write_ne (m : Memory) {a b : Nat} (v : Word) (h : b ≠ a) :
    (m.write a v).read b = m.read b := by
  simp [Memory.read_write, h]

/-- A write within its precondition keeps the canonical form. -/
theorem Memory.write_wf {m : Memory} (h : m.wf) {a : Nat} (ha : a < m.capacity) (v : Word) :
    (m.write a v).wf := by
  obtain ⟨hs, hc, hlo, hhi⟩ := h
  have hdrop : (dropCell a m.cells).Pairwise (fun x y => x.1 < y.1) := hs.filter _
  have hmem : ∀ c ∈ dropCell a m.cells, c ∈ m.cells := fun c hx => (List.mem_filter.mp hx).1
  by_cases hv : v = unlistedWord
  · have hcells : (m.write a v).cells = dropCell a m.cells := by simp [Memory.write, writeCells, hv]
    refine ⟨?_, ?_, hlo, hhi⟩
    · rw [hcells]; exact hdrop
    · rw [hcells]; exact fun c hx => hc c (hmem c hx)
  · have hcells : (m.write a v).cells = insertCell a v (dropCell a m.cells) := by
      simp [Memory.write, writeCells, hv]
    refine ⟨?_, ?_, hlo, hhi⟩
    · rw [hcells]; exact sorted_insertCell a v _ hdrop (dropCell_ne a m.cells)
    · rw [hcells]
      intro c hx
      rcases mem_insertCell hx with rfl | hx
      · exact ⟨ha, hv⟩
      · exact hc c (hmem c hx)

/-- The empty memory of a capacity the spec allows is canonical. -/
theorem Memory.empty_wf {n : Nat} (h1 : 1 ≤ n) (h2 : n ≤ Config.maxCapacity) : (Memory.mk n []).wf :=
  ⟨List.Pairwise.nil, by simp, h1, h2⟩

theorem State.reset_mem_wf : State.reset.mem.wf := Memory.empty_wf (by decide) (by decide)

/-- Everything `MemRead` can answer. -/
theorem memRead_cases (m : Memory) (a : Word) :
    (m.backed a ∧ memRead m a = some (m.read (uint a))) ∨ (¬ m.backed a ∧ memRead m a = none) := by
  by_cases h : m.backed a
  · exact .inl ⟨h, if_pos h⟩
  · exact .inr ⟨h, if_neg h⟩

theorem memRead_backed {m : Memory} {a : Word} (h : m.backed a) :
    memRead m a = some (m.read (uint a)) := if_pos h

theorem memRead_unbacked {m : Memory} {a : Word} (h : ¬ m.backed a) : memRead m a = none := if_neg h

/-! ### Fetch-advance and fault entry -/

@[simp] theorem fetchAdvance_regs (w : Word) (s : State) : (fetchAdvance w s).regs = s.regs := rfl
@[simp] theorem fetchAdvance_reg (w : Word) (s : State) (r : Reg) :
    (fetchAdvance w s).reg r = s.reg r := rfl
@[simp] theorem fetchAdvance_pc (w : Word) (s : State) : (fetchAdvance w s).pc = s.pc + 1 := rfl
@[simp] theorem fetchAdvance_ir (w : Word) (s : State) : (fetchAdvance w s).ir = w := rfl
@[simp] theorem fetchAdvance_cc (w : Word) (s : State) : (fetchAdvance w s).cc = s.cc := rfl
@[simp] theorem fetchAdvance_mem (w : Word) (s : State) : (fetchAdvance w s).mem = s.mem := rfl
@[simp] theorem fetchAdvance_status (w : Word) (s : State) :
    (fetchAdvance w s).status = s.status := rfl
@[simp] theorem fetchAdvance_out (w : Word) (s : State) : (fetchAdvance w s).out = s.out := rfl

@[simp] theorem raiseFault_regs (e : FaultReason) (s : State) : (raiseFault e s).regs = s.regs := rfl
@[simp] theorem raiseFault_reg (e : FaultReason) (s : State) (r : Reg) :
    (raiseFault e s).reg r = s.reg r := rfl
@[simp] theorem raiseFault_pc (e : FaultReason) (s : State) : (raiseFault e s).pc = s.pc := rfl
@[simp] theorem raiseFault_ir (e : FaultReason) (s : State) : (raiseFault e s).ir = s.ir := rfl
@[simp] theorem raiseFault_cc (e : FaultReason) (s : State) : (raiseFault e s).cc = s.cc := rfl
@[simp] theorem raiseFault_mem (e : FaultReason) (s : State) : (raiseFault e s).mem = s.mem := rfl
@[simp] theorem raiseFault_status (e : FaultReason) (s : State) :
    (raiseFault e s).status = .faulted e := rfl
@[simp] theorem raiseFault_out (e : FaultReason) (s : State) : (raiseFault e s).out = s.out := rfl

end Sys2Proof.Machine
end

