-- ==== Sys2Proof/Laws/Exec.lean ====
section
/-! SUPPORT. What the condition-code unit and the meanings can do, once each: the lemmas to cite instead
of unfolding `exec`. -/

namespace Sys2Proof.Machine

/-! ### The condition-code unit -/

/-- The three cases of `setcc`. -/
theorem setcc_cases (v : Word) :
    (sint v < 0 ∧ setcc v = .n) ∨ (sint v = 0 ∧ setcc v = .z) ∨ (0 < sint v ∧ setcc v = .p) := by
  by_cases h1 : sint v < 0
  · exact .inl ⟨h1, if_pos h1⟩
  · by_cases h2 : sint v = 0
    · exact .inr (.inl ⟨h2, by rw [setcc, if_neg h1, if_pos h2]⟩)
    · exact .inr (.inr ⟨by omega, by rw [setcc, if_neg h1, if_neg h2]⟩)

theorem setcc_ne_u (v : Word) : setcc v ≠ .u := by
  rcases setcc_cases v with ⟨_, h⟩ | ⟨_, h⟩ | ⟨_, h⟩ <;> simp [h]

@[simp] theorem aluWrite_reg_same (d : Reg) (r : Word) (s : State) : (aluWrite d r s).reg d = r := by
  simp [aluWrite]
@[simp] theorem aluWrite_reg_ne {d q : Reg} (r : Word) (s : State) (h : q ≠ d) :
    (aluWrite d r s).reg q = s.reg q := by
  simp [aluWrite, h]
@[simp] theorem aluWrite_cc (d : Reg) (r : Word) (s : State) : (aluWrite d r s).cc = setcc r := rfl
@[simp] theorem aluWrite_pc (d : Reg) (r : Word) (s : State) : (aluWrite d r s).pc = s.pc := rfl
@[simp] theorem aluWrite_ir (d : Reg) (r : Word) (s : State) : (aluWrite d r s).ir = s.ir := rfl
@[simp] theorem aluWrite_mem (d : Reg) (r : Word) (s : State) : (aluWrite d r s).mem = s.mem := rfl
@[simp] theorem aluWrite_status (d : Reg) (r : Word) (s : State) :
    (aluWrite d r s).status = s.status := rfl
@[simp] theorem aluWrite_out (d : Reg) (r : Word) (s : State) : (aluWrite d r s).out = s.out := rfl

/-! ### exec -/

/-- Everything `exec` can do: an ALU write to one register, an LD's write, an LD's fault, a taken
branch, nothing (a branch not taken), a halt, or one code emitted. -/
theorem exec_cases (i : Instr) (s : State) :
    (∃ d r, exec i s = .next (aluWrite d r s) ∧
      ((∃ a b, i = .addR d a b ∧ r = s.reg a + s.reg b) ∨
       (∃ a m, i = .addI d a m ∧ r = s.reg a + sext16 m) ∨
       (∃ a b, i = .andR d a b ∧ r = s.reg a &&& s.reg b) ∨
       (∃ a m, i = .andI d a m ∧ r = s.reg a &&& sext16 m) ∨
       (∃ a, i = .notR d a ∧ r = ~~~ s.reg a))) ∨
    (∃ d off, i = .ld d off ∧ s.mem.backed (s.pc + sext16 off) ∧
      exec i s = .next (s.setReg d (s.mem.read (uint (s.pc + sext16 off))))) ∨
    (∃ d off, i = .ld d off ∧ ¬ s.mem.backed (s.pc + sext16 off) ∧
      exec i s = .next (raiseFault .addressOutOfRange s)) ∨
    (∃ n z p off, i = .br n z p off ∧ branchTaken n z p s.cc = true ∧
      exec i s = .next (s.setPc (s.pc + sext16 off))) ∨
    (∃ n z p off, i = .br n z p off ∧ branchTaken n z p s.cc = false ∧ exec i s = .next s) ∨
    (i = .trapHalt ∧ exec i s = .next (s.setStatus .halted)) ∨
    (i = .trapOut ∧ exec i s = .next (s.emit (bits (s.reg .r0) 7 0))) := by
  cases i with
  | addR d a b => exact .inl ⟨d, _, rfl, .inl ⟨a, b, rfl, rfl⟩⟩
  | addI d a m => exact .inl ⟨d, _, rfl, .inr (.inl ⟨a, m, rfl, rfl⟩)⟩
  | andR d a b => exact .inl ⟨d, _, rfl, .inr (.inr (.inl ⟨a, b, rfl, rfl⟩))⟩
  | andI d a m => exact .inl ⟨d, _, rfl, .inr (.inr (.inr (.inl ⟨a, m, rfl, rfl⟩)))⟩
  | notR d a => exact .inl ⟨d, _, rfl, .inr (.inr (.inr (.inr ⟨a, rfl, rfl⟩)))⟩
  | ld d off =>
    rcases memRead_cases s.mem (s.pc + sext16 off) with ⟨h, hr⟩ | ⟨h, hr⟩
    · exact .inr (.inl ⟨d, off, rfl, h, by simp only [exec, execLd, pcRelative, hr]⟩)
    · exact .inr (.inr (.inl ⟨d, off, rfl, h, by simp only [exec, execLd, pcRelative, hr]⟩))
  | br n z p off =>
    cases h : branchTaken n z p s.cc with
    | true =>
      exact .inr (.inr (.inr (.inl ⟨n, z, p, off, rfl, h, by simp [exec, execBr, h, pcRelative]⟩)))
    | false =>
      exact .inr (.inr (.inr (.inr (.inl ⟨n, z, p, off, rfl, h, by simp [exec, execBr, h]⟩))))
  | trapHalt => exact .inr (.inr (.inr (.inr (.inr (.inl ⟨rfl, rfl⟩)))))
  | trapOut => exact .inr (.inr (.inr (.inr (.inr (.inr ⟨rfl, rfl⟩)))))

/-- Every instruction answers a next state, in every state. -/
theorem exec_next (i : Instr) (s : State) : ∃ t, exec i s = .next t := by
  rcases exec_cases i s with ⟨_, _, h, _⟩ | ⟨_, _, _, _, h⟩ | ⟨_, _, _, _, h⟩ |
    ⟨_, _, _, _, _, _, h⟩ | ⟨_, _, _, _, _, _, h⟩ | ⟨_, h⟩ | ⟨_, h⟩ <;> exact ⟨_, h⟩

/-- No instruction writes IR: only the fetch does (R25). -/
theorem exec_ir {i : Instr} {s t : State} (h : exec i s = .next t) : t.ir = s.ir := by
  rcases exec_cases i s with ⟨_, _, e, _⟩ | ⟨_, _, _, _, e⟩ | ⟨_, _, _, _, e⟩ |
    ⟨_, _, _, _, _, _, e⟩ | ⟨_, _, _, _, _, _, e⟩ | ⟨_, e⟩ | ⟨_, e⟩ <;>
    · rw [e] at h; cases h; rfl

end Sys2Proof.Machine
end

