-- ==== Sys2Proof/Laws/PerInstr.lean ====
section
/-! SUPPORT. What is said of every instruction, one lemma per constructor. Family TableRow: the encoded
word carries the mask and match of its row of opcode_table.json, and no bit the row fixes is one the
decoder ignores. -/

namespace Sys2Proof.Laws.TableRow

/-- The encoding of `i` meets its row's mask and match, and the row fixes no ignored bit. -/
def Statement (i : Instr) : Prop :=
  encode i &&& i.tableMask = i.tableMatch ∧ i.tableMask &&& i.ignoredBits = 0x0000#16

theorem addR (dr sr1 sr2 : Reg) : Statement (.addR dr sr1 sr2) := by
  refine ⟨?_, by simp [Instr.tableMask, Instr.ignoredBits]⟩
  apply BitVec.eq_of_getLsbD_eq
  intro k hk
  simp only [encode, fieldAt, Instr.tableMask, Instr.tableMatch]
  interval_cases k <;> simp

theorem addI (dr sr1 : Reg) (imm5 : BitVec 5) : Statement (.addI dr sr1 imm5) := by
  refine ⟨?_, by simp [Instr.tableMask, Instr.ignoredBits]⟩
  apply BitVec.eq_of_getLsbD_eq
  intro k hk
  simp only [encode, fieldAt, Instr.tableMask, Instr.tableMatch]
  interval_cases k <;> simp

theorem ld (dr : Reg) (off9 : BitVec 9) : Statement (.ld dr off9) := by
  refine ⟨?_, by simp [Instr.tableMask, Instr.ignoredBits]⟩
  apply BitVec.eq_of_getLsbD_eq
  intro k hk
  simp only [encode, fieldAt, Instr.tableMask, Instr.tableMatch]
  interval_cases k <;> simp

theorem andR (dr sr1 sr2 : Reg) : Statement (.andR dr sr1 sr2) := by
  refine ⟨?_, by simp [Instr.tableMask, Instr.ignoredBits]⟩
  apply BitVec.eq_of_getLsbD_eq
  intro k hk
  simp only [encode, fieldAt, Instr.tableMask, Instr.tableMatch]
  interval_cases k <;> simp

theorem andI (dr sr1 : Reg) (imm5 : BitVec 5) : Statement (.andI dr sr1 imm5) := by
  refine ⟨?_, by simp [Instr.tableMask, Instr.ignoredBits]⟩
  apply BitVec.eq_of_getLsbD_eq
  intro k hk
  simp only [encode, fieldAt, Instr.tableMask, Instr.tableMatch]
  interval_cases k <;> simp

theorem notR (dr sr1 : Reg) : Statement (.notR dr sr1) := by
  refine ⟨?_, by simp [Instr.tableMask, Instr.ignoredBits]⟩
  apply BitVec.eq_of_getLsbD_eq
  intro k hk
  simp only [encode, fieldAt, Instr.tableMask, Instr.tableMatch]
  interval_cases k <;> simp

theorem br (n z p : Bool) (off9 : BitVec 9) : Statement (.br n z p off9) := by
  refine ⟨?_, by simp [Instr.tableMask, Instr.ignoredBits]⟩
  apply BitVec.eq_of_getLsbD_eq
  intro k hk
  simp only [encode, fieldAt, Instr.tableMask, Instr.tableMatch]
  interval_cases k <;> simp

theorem trapHalt : Statement .trapHalt := ⟨rfl, rfl⟩

theorem trapOut : Statement .trapOut := ⟨rfl, rfl⟩

end Sys2Proof.Laws.TableRow
end

