-- ==== Sys2Proof/Laws/Step.lean ====
section
/-! SUPPORT. Everything a step can do, said once; and that the host's `withFetchWord` does what it is
for. -/

namespace Sys2Proof.Machine

/-- If a step answers a next state, the status was `Running`, and either the fetch faulted, or the
fetched word was Unknown, or it is an instruction that `exec` ran after the fetch-advance. -/
theorem step_cases {s t : State} (h : step s = .next t) :
    s.status = .running ∧
    ((¬ s.mem.backed s.pc ∧ t = raiseFault .addressOutOfRange s) ∨
     (s.mem.backed s.pc ∧ ∃ why, decode (s.mem.read (uint s.pc)) = .unknown why ∧
       t = raiseFault .illegalInstruction (fetchAdvance (s.mem.read (uint s.pc)) s)) ∨
     (s.mem.backed s.pc ∧ ∃ i, decode (s.mem.read (uint s.pc)) = .known i ∧
       exec i (fetchAdvance (s.mem.read (uint s.pc)) s) = .next t)) := by
  unfold step at h
  cases hs : s.status with
  | halted => simp [hs] at h
  | faulted e => simp [hs] at h
  | running =>
    refine ⟨rfl, ?_⟩
    simp only [hs] at h
    rcases memRead_cases s.mem s.pc with ⟨hb, hr⟩ | ⟨hb, hr⟩
    · simp only [fetchWord, hr, decodeExecute] at h
      cases hd : decode (s.mem.read (uint s.pc)) with
      | known i =>
        rw [hd] at h
        exact .inr (.inr ⟨hb, i, rfl, h⟩)
      | unknown why =>
        rw [hd] at h
        cases h
        exact .inr (.inl ⟨hb, why, rfl, rfl⟩)
    · simp only [fetchWord, hr] at h
      cases h
      exact .inl ⟨hb, rfl⟩

/-- With the host's word placed, the very next step runs the table's instruction, and it is the first
thing that happens (log entry 14). -/
theorem step_withFetchWord {s : State} (hc : 1 ≤ s.mem.capacity) {nbits w : Nat} {i : Instr}
    (hi : decodeTableWord nbits w = some i) :
    step (s.withFetchWord nbits w)
      = exec i (fetchAdvance (tableWord nbits w) (s.withFetchWord nbits w)) := by
  have hd : decode (tableWord nbits w) = .known i := by
    unfold decodeTableWord at hi
    split at hi
    · cases hi; assumption
    · cases hi
  have hb : (s.withFetchWord nbits w).mem.backed (s.withFetchWord nbits w).pc := by
    by_cases hp : s.mem.backed s.pc
    · simp [State.withFetchWord, hp]
    · simp only [State.withFetchWord, if_neg hp, State.setMem_mem, State.setMem_pc, State.setPc_pc]
      exact hc
  have hr : fetchWord (s.withFetchWord nbits w) = some (tableWord nbits w) := by
    rw [fetchWord, memRead_backed hb]
    simp [State.withFetchWord]
  have hst : (s.withFetchWord nbits w).status = .running := rfl
  simp only [step, hst, hr, decodeExecute, hd]

end Sys2Proof.Machine
end

