-- ==== Sys2Proof/Tests/Slice0.lean ====
section
/-! SUPPORT. The model's own tests. Expected results come from the spec: the encodings of 30_encoding.md
R64 to R73 and the tables of 95_test_vectors.md (named in each section). The witnesses at the end show,
for every obligation with hypotheses, a concrete state and operands that meet them together. -/

namespace Sys2Proof.Tests

open Sys2Proof.Machine

/-! ### Helpers -/

/-- The next state of an outcome, if it is one. -/
def nextOf (o : Host.Outcome State Fault Refusal) : Option State :=
  match o with
  | .next t => some t
  | .fault _ => none
  | .refused _ => none

/-- The reset state with these words in memory (addresses rising, no zero word). -/
def loaded (capacity : Nat) (cells : List (Nat × Word)) : State :=
  State.resetWith capacity .zero |>.setMem ⟨capacity, cells⟩

/-- One word at the address of PC 0, in 50 words of memory, with R0 and R1 preset (a fixture, R142). -/
def fixture (w r0 r1 : Word) : State :=
  ((loaded 50 [(0, w)]).setReg .r0 r0).setReg .r1 r1

/-- A BR word at address 5, with a condition code (a fixture of table L2-BR). -/
def branchAt5 (w : Word) (c : CC) : State := ((loaded 50 [(5, w)]).setPc 5#16).setCc c

/-- One field of the state after one step. -/
def stepThen {α : Type} (s : State) (f : State → α) : Option α := (nextOf (step s)).map f

/-! ### WellFormed: each check refuses an ill-formed term (R70, R71) -/

theorem test_wf_imm_above : AsmLine.wf (.addI .r0 .r0 16) = false := by decide
theorem test_wf_imm_below : AsmLine.wf (.andI .r0 .r0 (-17)) = false := by decide
theorem test_wf_off_above : AsmLine.wf (.ld .r0 256) = false := by decide
theorem test_wf_off_below : AsmLine.wf (.br true false false (-257)) = false := by decide
theorem test_wf_bare_br : AsmLine.wf (.br false false false 0) = false := by decide
theorem test_wf_fill_above : AsmLine.wf (.fill 65536) = false := by decide
theorem test_wf_fill_below : AsmLine.wf (.fill (-32769)) = false := by decide
theorem test_wf_accepts_bounds :
    AsmLine.wf (.addI .r0 .r0 15) = true ∧ AsmLine.wf (.andI .r0 .r0 (-16)) = true ∧
    AsmLine.wf (.ld .r0 255) = true ∧ AsmLine.wf (.br false false true (-256)) = true ∧
    AsmLine.wf (.fill 65535) = true ∧ AsmLine.wf (.fill (-32768)) = true := by decide

/-! ### Decode: words written out bit by bit from the formats of R68 -/

theorem test_decode_addR : decode 0b0001_010_000_0_00_001#16 = .known (.addR .r2 .r0 .r1) := by decide
theorem test_decode_addI : decode 0b0001_001_111_1_10000#16 = .known (.addI .r1 .r7 0b10000#5) := by
  decide
theorem test_decode_ld : decode 0b0010_110_100000001#16 = .known (.ld .r6 0b100000001#9) := by decide
theorem test_decode_andR : decode 0b0101_011_100_0_00_101#16 = .known (.andR .r3 .r4 .r5) := by decide
theorem test_decode_andI : decode 0b0101_001_000_1_11111#16 = .known (.andI .r1 .r0 0b11111#5) := by
  decide
theorem test_decode_notR : decode 0b1001_011_010_111111#16 = .known (.notR .r3 .r2) := by decide
theorem test_decode_br : decode 0b0000_1_0_1_011111111#16 = .known (.br true false true 0b011111111#9) := by
  decide
theorem test_decode_trapHalt : decode 0b1111_0000_00100101#16 = .known .trapHalt := by decide
theorem test_decode_trapOut : decode 0b1111_0000_00100001#16 = .known .trapOut := by decide

/-- Ignored bits set or clear decode to the same (R67). -/
theorem test_decode_ignored_bits :
    decode 0x1018#16 = decode 0x1000#16 ∧ decode 0x5418#16 = decode 0x5400#16 ∧
    decode 0x9000#16 = decode 0x903F#16 ∧ decode 0xFF25#16 = decode 0xF025#16 ∧
    decode 0xFA21#16 = decode 0xF021#16 := by decide

/-- The illegal rows of table L2-decode and L2-TRAP. -/
theorem test_decode_unknown :
    decode 0x3000#16 = .unknown (.opcode 3#4) ∧ decode 0x8000#16 = .unknown (.opcode 8#4) ∧
    decode 0xE1FF#16 = .unknown (.opcode 14#4) ∧ decode 0xF023#16 = .unknown (.trapVector 0x23#8) ∧
    decode 0xF0FF#16 = .unknown (.trapVector 0xFF#8) := by decide

theorem test_decodeTableWord_not : decodeTableWord 16 0x9000 = some (.notR .r0 .r0) := by decide
theorem test_decodeTableWord_illegal : decodeTableWord 16 0xD000 = none := by decide

/-- Worked encodings of R73. -/
theorem test_encode_worked :
    encode (.addI .r1 .r0 5#5) = 0x1225#16 ∧ encode (.andI .r1 .r0 0#5) = 0x5220#16 ∧
    encode (.ld .r1 2#9) = 0x2202#16 ∧ encode (.addR .r2 .r1 .r0) = 0x1440#16 ∧
    encode (.notR .r3 .r3) = 0x96FF#16 ∧ encode (.br true true true (-1#9)) = 0x0FFF#16 := by decide

theorem test_disassembly_text :
    (disassemble 0x1225#16).text = "ADD R1,R0,#5" ∧ (disassemble 0x0000#16).text = "NOP" ∧
    (disassemble 0x0003#16).text = ".FILL x0003" := by
  refine ⟨?_, ?_, ?_⟩ <;> rfl

/-! ### Word primitives: table L1-1 and L1-2 -/

theorem test_fromSigned_bounds :
    fromSigned (-32768) = .ok 0x8000#16 ∧ fromSigned 32767 = .ok 0x7FFF#16 ∧
    fromSigned 32768 = .error .rangeError ∧ fromSigned (-32769) = .error .rangeError :=
  ⟨rfl, rfl, rfl, rfl⟩
theorem test_field_errors (w : Word) :
    field 12 5 w = .error .rangeError ∧ field 0 0 w = .error .rangeError := ⟨rfl, rfl⟩
theorem test_sext :
    sext16 0x10#5 = 0xFFF0#16 ∧ sext16 0x0FF#9 = 0x00FF#16 ∧ sext16 1#1 = 0xFFFF#16 ∧
    zext16 0x1F#5 = 0x001F#16 := by decide

/-! ### Instructions: one step each, from tables L2-ADD to L2-TRAP -/

theorem test_addR_overflow_wraps :
    stepThen (fixture 0x1401#16 0x7FFF#16 0x0001#16) (fun t => (t.reg .r2, t.cc, t.pc))
      = some (0x8000#16, .n, 1#16) := by decide
theorem test_addR_carry_dropped :
    stepThen (fixture 0x1440#16 0xFFFF#16 0x0001#16) (fun t => (t.reg .r2, t.cc))
      = some (0x0000#16, .z) := by decide
theorem test_addI_minus_one :
    stepThen (fixture 0x127F#16 0#16 0#16) (fun t => (t.reg .r1, t.cc))
      = some (0xFFFF#16, .n) := by decide
theorem test_addI_in_place :
    stepThen (fixture 0x126F#16 0#16 0x7FF1#16) (fun t => (t.reg .r1, t.cc))
      = some (0x8000#16, .n) := by decide
theorem test_andR :
    stepThen (fixture 0x5401#16 0x00FF#16 0x0F0F#16) (fun t => (t.reg .r2, t.cc))
      = some (0x000F#16, .p) := by decide
/-- The corner of J206 §9(a): the immediate is extended to 16 bits, not to 11. -/
theorem test_andI_extends_to_sixteen :
    stepThen (fixture 0x5230#16 0x1234#16 0#16) (fun t => (t.reg .r1, t.cc))
      = some (0x1230#16, .p) := by decide
theorem test_notR :
    stepThen (fixture 0x923F#16 0x8000#16 0#16) (fun t => (t.reg .r1, t.cc))
      = some (0x7FFF#16, .p) := by decide
theorem test_ld_last_backed_word :
    stepThen (loaded 50 [(0, 0x2030#16), (49, 0xBEEF#16)]) (fun t => (t.reg .r0, t.cc, t.pc))
      = some (0xBEEF#16, .u, 1#16) := by decide
/-- The advance wraps PC to 0 in the largest memory. -/
theorem test_ld_wraps_at_the_top :
    stepThen ((loaded 65536 [(0, 0x2222#16), (65535, 0x2000#16)]).setPc 0xFFFF#16)
      (fun t => (t.reg .r0, t.pc)) = some (0x2222#16, 0#16) := by decide
theorem test_ld_unbacked_faults :
    stepThen ((loaded 50 [(0, 0x2031#16)]).setReg .r0 7#16) (fun t => (t.status, t.reg .r0))
      = some (.faulted .addressOutOfRange, 7#16) := by decide
theorem test_br_mask_table :
    stepThen (branchAt5 0x0A03#16 .p) (fun t => t.pc) = some 9#16 ∧
    stepThen (branchAt5 0x0A03#16 .z) (fun t => t.pc) = some 6#16 ∧
    stepThen (branchAt5 0x0E03#16 .u) (fun t => t.pc) = some 6#16 ∧
    stepThen (branchAt5 0x0403#16 .z) (fun t => t.pc) = some 9#16 := by decide
theorem test_br_extreme_offsets :
    stepThen (branchAt5 0x0F00#16 .n) (fun t => (t.pc, t.status)) = some (0xFF06#16, .running) ∧
    stepThen (branchAt5 0x0EFF#16 .n) (fun t => t.pc) = some 0x0105#16 := by decide
theorem test_trapHalt :
    stepThen (fixture 0xFF25#16 0#16 0#16) (fun t => (t.status, t.pc, t.cc))
      = some (.halted, 1#16, .u) := by decide
theorem test_trapOut_low_byte :
    stepThen (fixture 0xF021#16 0x0141#16 0#16) (fun t => (t.out, t.reg .r0, t.status))
      = some ([0x41#8], 0x0141#16, .running) := by decide
theorem test_trapOut_drops_high_byte :
    stepThen (fixture 0xFA21#16 0xFF48#16 0#16) (fun t => t.out) = some [0x48#8] := by decide

/-! ### Engine and ports: table L2-engine -/

theorem test_illegal_word :
    stepThen (fixture 0x3000#16 5#16 0#16) (fun t => (t.status, t.reg .r0))
      = some (.faulted .illegalInstruction, 5#16) := by decide
theorem test_fetch_past_the_end :
    stepThen (State.reset.setPc 50#16) (fun t => t.status)
      = some (.faulted .addressOutOfRange) := by decide
theorem test_fetch_at_the_last_address :
    stepThen (State.reset.setPc 49#16) (fun t => (t.pc, t.status)) = some (50#16, .running) := by decide
theorem test_no_step_when_halted :
    nextOf (step (State.reset.setStatus .halted)) = none ∧
    stepPort (State.reset.setStatus .halted) = State.reset.setStatus .halted := by decide
theorem test_load_bounds :
    (afterLoad 49 0x1225#16 State.reset).mem.cells = [(49, 0x1225#16)] ∧
    afterLoad 50 0x1225#16 State.reset = State.reset ∧
    afterLoad (-1) 0x1225#16 State.reset = State.reset := by decide
theorem test_inspect_unbacked : inspectMem 50 State.reset = .error .rangeError := rfl
theorem test_load_zero_keeps_form :
    (afterLoad 3 0#16 (afterLoad 3 7#16 State.reset)).mem = State.reset.mem := by decide

/-- The host's word placed after reset is the first instruction that runs. -/
theorem test_withFetchWord_first :
    stepThen (State.reset.withFetchWord 16 0x1225) (fun t => (t.reg .r1, t.cc, t.pc))
      = some (0x0005#16, .p, 1#16) := by decide

/-! ### Witnesses: for each obligation with hypotheses, values that meet them together -/

theorem witness_WordNumbersReadBack :
    fromSigned (-32768) = .ok 0x8000#16 ∧ fromSigned 32768 = .error .rangeError ∧
    fromUnsigned 65535 = .ok 0xFFFF#16 ∧ fromUnsigned 0 = .ok 0#16 ∧
    fromUnsigned (-1) = .error .rangeError ∧ fromUnsigned 65536 = .error .rangeError :=
  ⟨rfl, rfl, rfl, rfl, rfl, rfl⟩

theorem witness_SignExtensionKeepsSignedValue :
    signExtendField 1 1#1 = .ok 0xFFFF#16 ∧ signExtendField 16 0x8000#16 = .ok 0x8000#16 :=
  ⟨rfl, rfl⟩

theorem witness_FieldInvertAndOnWords :
    field 15 1 0x0001#16 = .ok 1#1 ∧ field 0 16 0x8001#16 = .ok 0x8001#16 ∧
    field 16 1 0x0001#16 = .error .rangeError ∧ field 3 0 0x0001#16 = .error .rangeError ∧
    (invert 0x00FF#16).getLsbD 15 = true ∧ andField 0b110#3 0b011#3 = .ok 0b010#3 ∧
    andField 0b1#1 0b11#2 = .error .rangeError := ⟨rfl, rfl, rfl, rfl, rfl, rfl, rfl⟩

theorem witness_DecodeEncodeRoundTrip : Instr.wf (.ld .r7 0x100#9) = true := by decide

/-- A word for every clause: each opcode of the map, both services, other vectors, the illegal opcodes'
ends. -/
theorem witness_OpcodeMapAndTrapServices :
    uint (0x0000#16) / 4096 = 0 ∧ uint (0x1FFF#16) / 4096 = 1 ∧ uint (0x2000#16) / 4096 = 2 ∧
    uint (0x5FFF#16) / 4096 = 5 ∧ uint (0x9000#16) / 4096 = 9 ∧
    (uint (0xFF25#16) / 4096 = 15 ∧ uint (0xFF25#16) % 256 = 37) ∧
    (uint (0xF021#16) / 4096 = 15 ∧ uint (0xF021#16) % 256 = 33) ∧
    (uint (0xF0FF#16) / 4096 = 15 ∧ uint (0xF0FF#16) % 256 ≠ 37 ∧ uint (0xF0FF#16) % 256 ≠ 33) ∧
    uint (0x3000#16) / 4096 ∈ [3, 4, 6, 7, 8, 10, 11, 12, 13, 14] ∧
    uint (0xEFFF#16) / 4096 ∈ [3, 4, 6, 7, 8, 10, 11, 12, 13, 14] := by decide

theorem witness_FieldsStandWhereTheTableSays :
    decode 0x1FC7#16 = .known (.addR .r7 .r7 .r7) ∧ decode 0x5000#16 = .known (.andR .r0 .r0 .r0) ∧
    decode 0x1FFF#16 = .known (.addI .r7 .r7 0x1F#5) ∧
    decode 0x5020#16 = .known (.andI .r0 .r0 0#5) ∧ decode 0x9FFF#16 = .known (.notR .r7 .r7) ∧
    decode 0x2FFF#16 = .known (.ld .r7 0x1FF#9) ∧
    decode 0x0FFF#16 = .known (.br true true true 0x1FF#9) ∧
    decode 0xF025#16 = .known .trapHalt ∧ decode 0xF021#16 = .known .trapOut ∧
    decode 0xF000#16 = .unknown (.trapVector 0#8) := by decide

theorem witness_AssemblerRejectsOutOfRangeNumbers :
    assemble (.addI .r0 .r0 15) = some 0x102F#16 ∧ assemble (.addI .r0 .r0 16) = none ∧
    assemble (.andI .r0 .r0 (-17)) = none ∧ assemble (.ld .r0 (-256)) = some 0x2100#16 ∧
    assemble (.ld .r0 256) = none ∧ assemble (.br true true true (-257)) = none := by decide

theorem witness_ImmediateIsSignExtendedToSixteenBits : (4 : Nat) ≤ 15 ∧ (15 : Nat) < 16 := by decide

theorem witness_RegistersAreSeparateCells :
    Reg.index .r7 = 7 ∧ (7 : Nat) < 8 ∧ Reg.index .r0 = 0 := by decide

theorem witness_ConditionCodeIsWrittenByAluOnly :
    aluDest (.notR .r5 .r0) = some .r5 ∧ aluDest (.ld .r5 0#9) = none := by decide

theorem witness_ConditionCodeIsReadByBranchOnly :
    (∀ n z p off9, Instr.ld .r1 0#9 ≠ .br n z p off9) ∧
    exec (.ld .r1 0#9) State.reset = .next (State.reset.setReg .r1 0#16) := by
  refine ⟨fun n z p off9 => ?_, rfl⟩
  simp

/-! A word of each instruction's mask and match, with ignored bits set where it has some. -/

theorem witness_AddRegisterWritesTheSum : 0x1FDF#16 &&& 0xF020#16 = 0x1000#16 := by decide
theorem witness_AddImmediateWritesTheSum : 0x1FFF#16 &&& 0xF020#16 = 0x1020#16 := by decide
theorem witness_AndRegisterIsBitwise : 0x5FDF#16 &&& 0xF020#16 = 0x5000#16 := by decide
theorem witness_AndImmediateIsBitwise : 0x5FFF#16 &&& 0xF020#16 = 0x5020#16 := by decide
theorem witness_NotFlipsEveryBit : 0x9FC0#16 &&& 0xF000#16 = 0x9000#16 := by decide
theorem witness_TrapHaltHalts : 0xFF25#16 &&& 0xF0FF#16 = 0xF025#16 := by decide
theorem witness_TrapOutEmitsTheLowByteOfR0 : 0xFF21#16 &&& 0xF0FF#16 = 0xF021#16 := by decide

theorem witness_NegationAndSubtraction : Reg.r0 ≠ Reg.r1 := by decide

/-- The last backed word is the target: PC 1 and offset 48 in 50 words. -/
theorem witness_LoadReadsTheBackedWord :
    0x2FFF#16 &&& 0xF000#16 = 0x2000#16 ∧
    (((49 : Nat) : Int) = ((uint (1#16) : Int) + sint (48#9)) % 65536) ∧
    49 < (State.reset.setPc 1#16).mem.capacity := by decide

/-- The first address that is not backed, and the wrap below 0. -/
theorem witness_LoadOutsideMemoryFaults :
    (((50 : Nat) : Int) = ((uint (1#16) : Int) + sint (49#9)) % 65536) ∧
    (((65535 : Nat) : Int) = ((uint (1#16) : Int) + sint (0x1FE#9)) % 65536) ∧
    State.reset.mem.capacity ≤ 50 ∧ State.reset.mem.capacity ≤ 65535 := by decide

theorem witness_LoadLeavesTheConditionCode :
    State.reset.mem.backed (pcRelative 49#9 State.reset) := by decide

/-- LD R0,#-2 at address 0, and an LD at 0xFFFF with offset 255, in memories of 50 and 65536 words. -/
theorem witness_LoadTargetWraps :
    (uint (0#16) : Int) + 1 + sint (0x1FE#9) < 0 ∧
    (65535 : Int) < (uint (0xFFFF#16) : Int) + 1 + sint (255#9) ∧
    (loaded 50 [(0, 0x21FE#16)]).status = .running ∧
    (loaded 50 [(0, 0x21FE#16)]).mem.backed (loaded 50 [(0, 0x21FE#16)]).pc ∧
    decode (wordAtPc (loaded 50 [(0, 0x21FE#16)])) = .known (.ld .r0 0x1FE#9) ∧
    (loaded 50 [(0, 0x21FE#16)]).mem.capacity ≤ 65281 ∧
    (loaded 65536 []).mem.capacity = 65536 := by decide

/-- A flag requested and present, each of the three; and requested but absent. -/
theorem witness_BranchTakenOnRequestedFlag :
    0x0FFF#16 &&& 0xF000#16 = 0x0000#16 ∧
    (branchAt5 0x0803#16 .n).cc = .n ∧ (branchAt5 0x0403#16 .z).cc = .z ∧
    (branchAt5 0x0203#16 .p).cc = .p ∧
    ¬ ((false = true ∧ CC.n = .n) ∨ (true = true ∧ CC.n = .z) ∨ (true = true ∧ CC.n = .p)) ∧
    State.reset.cc = .u := by decide

theorem witness_BranchStepTarget :
    (branchAt5 0x0FFF#16 .z).status = .running ∧
    (branchAt5 0x0FFF#16 .z).mem.backed (branchAt5 0x0FFF#16 .z).pc ∧
    decode (wordAtPc (branchAt5 0x0FFF#16 .z)) = .known (.br true true true 0x1FF#9) := by decide

/-- BRnzp #0 at the last address, taken to 50. -/
theorem witness_BranchToUnbackedTargetFaultsAtNextFetch :
    let s := (((loaded 50 [(49, 0x0E00#16)]).setPc 49#16).setCc .p)
    s.status = .running ∧ s.mem.backed s.pc ∧
    decode (wordAtPc s) = .known (.br true true true 0#9) ∧ branchTaken true true true s.cc = true ∧
    s.mem.capacity ≤ uint (s.pc + 1 + sext16 0#9) := by decide

theorem witness_TrapServicesAreBuiltIn :
    let s := fixture 0xF021#16 0x0041#16 0#16
    s.status = .running ∧ s.mem.backed s.pc ∧ decode (wordAtPc s) = .known .trapOut := by decide

theorem witness_OtherTrapVectorsAreIllegal :
    let s := fixture 0xF024#16 0#16 0#16
    uint (0xF024#16) / 4096 = 15 ∧ uint (0xF024#16) % 256 ≠ 0x25 ∧
    uint (0xF024#16) % 256 ≠ 0x21 ∧ s.status = .running ∧ s.mem.backed s.pc ∧
    wordAtPc s = 0xF024#16 := by decide

/-- At the last backed address. -/
theorem witness_StepRunsTheDecodedInstruction :
    let s := (loaded 50 [(49, 0x1225#16)]).setPc 49#16
    s.status = .running ∧ uint s.pc < s.mem.capacity ∧
    decode (s.mem.read (uint s.pc)) = .known (.addI .r1 .r0 5#5) := by decide

/-- The first address that is not backed; an illegal word at the last backed one. -/
theorem witness_FetchAndDecodeFaults :
    let s := (loaded 50 [(49, 0xD000#16)]).setPc 49#16
    State.reset.status = .running ∧ (State.reset.setPc 50#16).mem.capacity ≤ uint (50#16) ∧
    s.status = .running ∧ uint s.pc < s.mem.capacity ∧
    decode (wordAtPc s) = .unknown (.opcode 13#4) := by decide

/-- A step to each kind of next state: on, fault by fetch, fault by decode, fault by LD, halt. -/
theorem witness_steps :
    stepThen State.reset (fun t => t.status) = some .running ∧
    stepThen (State.reset.setPc 50#16) (fun t => t.status) = some (.faulted .addressOutOfRange) ∧
    stepThen (fixture 0x4000#16 0#16 0#16) (fun t => t.status)
      = some (.faulted .illegalInstruction) ∧
    stepThen (fixture 0x2031#16 0#16 0#16) (fun t => t.status)
      = some (.faulted .addressOutOfRange) ∧
    stepThen (fixture 0xF025#16 0#16 0#16) (fun t => t.status) = some .halted := by decide

theorem witness_StepFaultsExactlyAsTheTableSays :
    step (State.reset.setPc 50#16)
      = .next ((State.reset.setPc 50#16).setStatus (.faulted .addressOutOfRange)) := rfl

theorem witness_FaultingStepKeepsData :
    (raiseFault .addressOutOfRange (State.reset.setPc 50#16)).status = .faulted .addressOutOfRange ∧
    step (State.reset.setPc 50#16)
      = .next (raiseFault .addressOutOfRange (State.reset.setPc 50#16)) ∧
    CausesFault (State.reset.setPc 50#16) .addressOutOfRange :=
  ⟨rfl, rfl, .inl ⟨by decide, rfl⟩⟩

theorem witness_StatusIsEnteredAsTheRulesSay :
    stepThen (fixture 0xF025#16 0#16 0#16) (fun t => t.status) = some .halted ∧
    step (State.reset.setPc 50#16)
      = .next (raiseFault .addressOutOfRange (State.reset.setPc 50#16)) := ⟨by decide, rfl⟩

theorem witness_TerminalStatesAreNeverLeft :
    Final (State.reset.setStatus .halted) ∧
    Final (State.reset.setStatus (.faulted .illegalInstruction)) ∧
    uint (0x8000#16) / 4096 = 8 ∧ uint (0x8FFF#16) / 4096 = 8 := by
  unfold Final
  decide

theorem witness_RunningStepsAlwaysComplete :
    State.reset.status = .running ∧ (State.reset.setStatus .halted).status = .halted ∧
    (State.reset.setStatus (.faulted .illegalInstruction)).status
      = .faulted .illegalInstruction := by decide

/-- A HALT at address 0 ends its run after one step, an unbacked PC ends it by a fault, a final state is
at its end, and a BRnzp #-1 with CC set meets the hypotheses of the hang. -/
theorem witness_RunEndsInOneStateOrHangs :
    let s := fixture 0xF025#16 0#16 0#16
    let f := State.reset.setPc 50#16
    let b := branchAt5 0x0FFF#16 .z
    (s.status = .running ∧ step s = .next (runFor 1 s) ∧ RunEndsIn s (runFor 1 s)) ∧
    (f.status = .running ∧ RunEndsIn f (f.setStatus (.faulted .addressOutOfRange)) ∧
      CausesFault f .addressOutOfRange) ∧
    Final (State.reset.setStatus .halted) ∧
    b.status = .running ∧ b.mem.backed b.pc ∧
    decode (wordAtPc b) = .known (.br true true true (-1#9)) ∧ b.cc ≠ .u :=
  ⟨⟨rfl, rfl, by unfold Final; decide, 1, rfl⟩,
    ⟨rfl, ⟨by unfold Final; decide, 1, rfl⟩, .inl ⟨by decide, rfl⟩⟩,
    by unfold Final; decide, rfl, by decide, by decide, by decide⟩

/-- Two zero words before the end of a memory of 50, and none. -/
theorem witness_ZeroFilledMemoryRunsOffTheEnd :
    let s := (loaded 50 [(0, 0x1261#16)]).setPc 48#16
    s.status = .running ∧ s.mem.capacity < 65536 ∧ uint s.pc + 2 = s.mem.capacity ∧
    (∀ a, uint s.pc ≤ a → a < s.mem.capacity → s.mem.read a = 0x0000#16) ∧
    uint (s.setPc 50#16).pc + 0 = s.mem.capacity := by
  refine ⟨rfl, by decide, by decide, fun a h _ => ?_, by decide⟩
  have ha : (48 : Nat) ≤ a := h
  have hne : a ≠ 0 := by omega
  exact if_neg hne

theorem witness_PcChangesOnlyByAdvanceAndBranch :
    exec (.br true true true 3#9) (State.reset.setCc .z)
      = .next ((State.reset.setCc .z).setPc 3#16) ∧
    ((State.reset.setCc .z).setPc 3#16).pc ≠ (State.reset.setCc .z).pc ∧
    step State.reset = .next (State.reset.setPc 1#16) ∧
    ∀ reason, (State.reset.setPc 1#16).status ≠ .faulted reason :=
  ⟨rfl, by decide, rfl, fun reason => by simp [State.reset, State.resetWith]⟩

theorem witness_RegisterFrameOfEveryInstruction :
    destReg (.addR .r0 .r1 .r2) ≠ some .r7 ∧ destReg .trapOut ≠ some .r0 := by decide

theorem witness_IrIsTheFetchedWord :
    step State.reset = .next (State.reset.setPc 1#16) ∧
    (∀ reason, (State.reset.setPc 1#16).status ≠ .faulted reason) ∧
    exec .trapHalt State.reset = .next (State.reset.setStatus .halted) :=
  ⟨rfl, fun reason => by simp [State.reset, State.resetWith], rfl⟩

theorem witness_StatusIsReadByNoInstruction :
    exec .trapHalt State.reset = .next (State.reset.setStatus .halted) := rfl

theorem witness_OutputTraceOnlyGrows :
    step State.reset = .next (State.reset.setPc 1#16) ∧
    exec .trapOut State.reset = .next (State.reset.emit 0#8) := ⟨rfl, rfl⟩

theorem witness_OnlyTheLoadPortWritesMemory :
    (0 : Nat) < State.reset.mem.capacity ∧ (49 : Nat) < State.reset.mem.capacity ∧
    (State.reset.mem.capacity : Int) ≤ 50 ∧
    exec .trapHalt State.reset = .next (State.reset.setStatus .halted) :=
  ⟨by decide, by decide, by decide, rfl⟩

theorem witness_MemoryReadIsBoundsChecked :
    uint (49#16) < State.reset.mem.capacity ∧ State.reset.mem.capacity ≤ uint (50#16) ∧
    (State.reset.setPc 50#16).status = .running ∧
    State.reset.mem.capacity ≤ uint (pcRelative 50#9 State.reset) := by decide

theorem witness_PortsRefuseAddressesOutsideMemory :
    (0 : Int) < State.reset.mem.capacity ∧ (49 : Int) < State.reset.mem.capacity ∧
    (State.reset.mem.capacity : Int) ≤ 50 := by decide

theorem witness_LaunchMemoryIsTheLastLoads :
    (3 : Nat) < 50 ∧ (1 : Nat) ≤ 50 ∧
    (launchState 50 .zero [(3, 5#16), (50, 6#16), (3, 7#16)]).mem.cells = [(3, 7#16)] := by decide

theorem witness_ResetMeetsTheInvariant : (1 : Nat) ≤ 1 ∧ (65536 : Nat) ≤ 65536 := by decide

theorem witness_EveryStepKeepsTheInvariant :
    (fixture 0xF025#16 0#16 0#16).Inv ∧
    ∃ t, step (fixture 0xF025#16 0#16 0#16) = .next t ∧ t.status = .halted :=
  ⟨⟨by decide, by decide⟩, _, rfl, rfl⟩

theorem witness_CanonicalMemoriesAreEqualWhenTheyReadEqual :
    (Memory.mk 50 [(3, 7#16)]).wf ∧ (State.reset.mem.write 3 7#16).wf ∧
    (Memory.mk 50 [(3, 7#16)]).capacity = (State.reset.mem.write 3 7#16).capacity ∧
    ∀ a, (Memory.mk 50 [(3, 7#16)]).read a = (State.reset.mem.write 3 7#16).read a :=
  ⟨by decide, by decide, rfl, fun _ => rfl⟩

theorem witness_ConditionCodeOnceSetStaysSet :
    aluDest (.addI .r0 .r0 0#5) ≠ none ∧
    exec (.addI .r0 .r0 0#5) State.reset = .next (State.reset.setCc .z) ∧
    (State.reset.setCc .z).cc ≠ .u := ⟨by decide, rfl, by decide⟩

end Sys2Proof.Tests
end

/-! PROOFS. The Word primitives (00_scope.md R13 to R17): one lemma per primitive and outcome, sign
extension's signed value and bits, and the statements about them. -/

namespace Sys2Proof

/-! ### Numbers and Words (R13, R16) -/

theorem fromSigned_of_inRange {n : Int} (hlo : -32768 ≤ n) (hhi : n ≤ 32767) :
    fromSigned n = .ok (BitVec.ofInt 16 n) := if_pos ⟨hlo, hhi⟩

theorem fromSigned_of_outOfRange {n : Int} (h : n < -32768 ∨ 32767 < n) :
    fromSigned n = .error .rangeError := if_neg (by omega)

theorem fromUnsigned_of_inRange {n : Int} (hlo : 0 ≤ n) (hhi : n ≤ 65535) :
    fromUnsigned n = .ok (BitVec.ofInt 16 n) := if_pos ⟨hlo, hhi⟩

theorem fromUnsigned_of_outOfRange {n : Int} (h : n < 0 ∨ 65535 < n) :
    fromUnsigned n = .error .rangeError := if_neg (by omega)

theorem asSigned_ofInt {n : Int} (hlo : -32768 ≤ n) (hhi : n ≤ 32767) :
    asSigned (BitVec.ofInt 16 n) = n :=
  BitVec.toInt_ofInt_eq_self (by decide) (by omega) (by omega)

theorem asUnsigned_ofInt {n : Int} (hlo : 0 ≤ n) (hhi : n ≤ 65535) :
    (asUnsigned (BitVec.ofInt 16 n) : Int) = n := by
  rw [asUnsigned, uint, BitVec.toNat_ofInt]
  omega

/-- Bit 15 carries the weight -32768 in the signed reading and 32768 in the unsigned one (R16). -/
theorem asSigned_eq_asUnsigned_sub (w : Word) :
    asSigned w = (asUnsigned w : Int) - (if w.getLsbD 15 then 65536 else 0) := by
  rw [asSigned, asUnsigned, sint, uint, BitVec.toInt_eq_msb_cond, BitVec.msb_eq_getLsbD_last]
  split_ifs <;> simp

/-! ### Sign extension (R11, R15) -/

theorem signExtendField_of_width {width : Nat} (v : BitVec width) (hlo : 1 ≤ width)
    (hhi : width ≤ 16) : signExtendField width v = .ok (sext16 v) := if_pos ⟨hlo, hhi⟩

theorem sext16_toInt {k : Nat} (v : BitVec k) (hk : k ≤ 16) : (sext16 v).toInt = v.toInt :=
  BitVec.toInt_signExtend_of_le hk

/-- Below the width the bits are the operand's, above it they copy its top bit. -/
theorem getLsbD_sext16 {width : Nat} (v : BitVec width) {k : Nat} (hk : k < 16) :
    (sext16 v).getLsbD k = v.getLsbD (if k < width then k else width - 1) := by
  rw [sext16, BitVec.getLsbD_signExtend, BitVec.msb_eq_getLsbD_last]
  split_ifs <;> simp [hk]

@[simp] theorem sext16_word (w : Word) : sext16 w = w := BitVec.signExtend_eq w

/-! ### Slicing and bitwise operations (R14, R17) -/

theorem field_of_inRange {start width : Nat} (w : Word) (hw : 1 ≤ width)
    (h : start + width ≤ 16) :
    field start width w = .ok (w.extractLsb' (16 - start - width) width) := if_neg (by omega)

theorem field_of_outOfRange {start width : Nat} (w : Word) (h : 16 < start + width ∨ width = 0) :
    field start width w = .error .rangeError := if_pos h

theorem getLsbD_invert (w : Word) {k : Nat} (hk : k < 16) :
    (invert w).getLsbD k = !w.getLsbD k := by
  simp [invert, hk]

theorem andField_of_eqWidth {n : Nat} (a b : BitVec n) : andField a b = .ok (a &&& b) := by
  rw [andField, if_pos rfl, BitVec.setWidth_eq]

theorem andField_of_neWidth {m n : Nat} (a : BitVec m) (b : BitVec n) (h : m ≠ n) :
    andField a b = .error .rangeError := if_neg h

/-! ### The statements -/

/-- Settles O1: on its range each builder answers `BitVec.ofInt`, whose reading is the number. -/
theorem wordNumbersReadBack : Obligations.WordNumbersReadBack := by
  refine ⟨fun n hlo hhi => ?signed, fun n => fromSigned_of_outOfRange,
    fun n hlo hhi => ?unsigned, fun n => fromUnsigned_of_outOfRange, asSigned_eq_asUnsigned_sub⟩
  case signed => exact ⟨_, fromSigned_of_inRange hlo hhi, asSigned_ofInt hlo hhi⟩
  case unsigned => exact ⟨_, fromUnsigned_of_inRange hlo hhi, asUnsigned_ofInt hlo hhi⟩

/-- Settles O2: at every width 1..16 the answer is `sext16` of the operand. -/
theorem signExtensionKeepsSignedValue : Obligations.SignExtensionKeepsSignedValue := by
  refine ⟨fun width v hlo hhi => ?extended, fun v => ?identity⟩
  case extended =>
    exact ⟨_, signExtendField_of_width v hlo hhi, sext16_toInt v hhi, fun k => getLsbD_sext16 v⟩
  case identity => rw [signExtendField_of_width v (by decide) le_rfl, sext16_word]

/-- Settles O3: source index `start` with `width` bits is the slice from bit `16 - start - width` up. -/
theorem fieldInvertAndOnWords : Obligations.FieldInvertAndOnWords := by
  refine ⟨fun start width w hw h => ?slice, fun start width => field_of_outOfRange,
    fun w k => getLsbD_invert w, fun n a b => ?and, fun m n => andField_of_neWidth⟩
  case slice =>
    refine ⟨_, field_of_inRange w hw h, ?_⟩
    rw [uint, BitVec.extractLsb'_toNat, Nat.shiftRight_eq_div_pow]
  case and => exact ⟨_, andField_of_eqWidth a b, fun k _ => BitVec.getLsbD_and⟩

end Sys2Proof

/-! PROOFS. The state elements (10_state.md R20 to R30): what each instruction and each step does to the
status, PC, IR, CC and memory, one lemma per element, and the statements about them. -/

namespace Sys2Proof.Machine

/-! ### The two instructions with more than one outcome -/

theorem exec_ld_backed {d : Reg} {off : BitVec 9} {s : State}
    (h : s.mem.backed (pcRelative off s)) :
    exec (.ld d off) s = .next (s.setReg d (s.mem.read (uint (pcRelative off s)))) := by
  simp only [exec, execLd, memRead_backed h]

theorem exec_ld_unbacked {d : Reg} {off : BitVec 9} {s : State}
    (h : ¬ s.mem.backed (pcRelative off s)) :
    exec (.ld d off) s = .next (raiseFault .addressOutOfRange s) := by
  simp only [exec, execLd, memRead_unbacked h]

theorem exec_br_taken {n z p : Bool} {off : BitVec 9} {s : State}
    (h : branchTaken n z p s.cc = true) :
    exec (.br n z p off) s = .next (s.setPc (pcRelative off s)) := if_pos h

theorem exec_br_notTaken {n z p : Bool} {off : BitVec 9} {s : State}
    (h : ¬ branchTaken n z p s.cc = true) : exec (.br n z p off) s = .next s := if_neg h

/-! ### What an instruction does to one element of the state -/

theorem exec_mem {i : Instr} {s t : State} (h : exec i s = .next t) : t.mem = s.mem := by
  rcases exec_cases i s with ⟨_, _, e, _⟩ | ⟨_, _, _, _, e⟩ | ⟨_, _, _, _, e⟩ |
    ⟨_, _, _, _, _, _, e⟩ | ⟨_, _, _, _, _, _, e⟩ | ⟨_, e⟩ | ⟨_, e⟩ <;>
    · rw [e] at h; cases h; rfl

/-- PC is kept, but by a taken BR (R23). -/
theorem exec_pc_cases {i : Instr} {s t : State} (h : exec i s = .next t) :
    t.pc = s.pc ∨ ∃ n z p off9, i = .br n z p off9 ∧ branchTaken n z p s.cc = true ∧
      t.pc = s.pc + sext16 off9 := by
  rcases exec_cases i s with ⟨_, _, e, _⟩ | ⟨_, _, _, _, e⟩ | ⟨_, _, _, _, e⟩ |
    ⟨n, z, p, off, hi, hc, e⟩ | ⟨_, _, _, _, _, _, e⟩ | ⟨_, e⟩ | ⟨_, e⟩ <;>
    rw [e] at h <;> cases h
  case inr.inr.inr.inl => exact .inr ⟨n, z, p, off, hi, hc, rfl⟩
  all_goals exact .inl rfl

/-- The status is kept, but by TRAP HALT and by an LD whose target is not backed (R29). -/
theorem exec_status_cases {i : Instr} {s t : State} (h : exec i s = .next t) :
    (i = .trapHalt ∧ t.status = .halted) ∨
    (∃ d off9, i = .ld d off9 ∧ ¬ s.mem.backed (s.pc + sext16 off9) ∧
      t.status = .faulted .addressOutOfRange) ∨
    (i ≠ .trapHalt ∧ t.status = s.status) := by
  rcases exec_cases i s with ⟨d, r, e, hi⟩ | ⟨_, _, hi, _, e⟩ | ⟨d, off, hi, hb, e⟩ |
    ⟨_, _, _, _, hi, _, e⟩ | ⟨_, _, _, _, hi, _, e⟩ | ⟨hi, e⟩ | ⟨hi, e⟩ <;>
    rw [e] at h <;> cases h
  case inl => exact .inr (.inr ⟨by rintro rfl; simp at hi, rfl⟩)
  case inr.inr.inl => exact .inr (.inl ⟨d, off, hi, hb, rfl⟩)
  case inr.inr.inr.inr.inr.inl => exact .inl ⟨hi, rfl⟩
  all_goals exact .inr (.inr ⟨by simp [hi], rfl⟩)

theorem exec_cc_of_aluDest {i : Instr} {d : Reg} {s t : State} (hd : aluDest i = some d)
    (h : exec i s = .next t) : t.cc = setcc (t.reg d) := by
  cases i with
  | addR | addI | andR | andI | notR => cases hd; cases h; simp
  | ld | br | trapHalt | trapOut => cases hd

theorem exec_cc_of_no_aluDest {i : Instr} {s t : State} (hd : aluDest i = none)
    (h : exec i s = .next t) : t.cc = s.cc := by
  rcases exec_cases i s with ⟨d, r, _, hi⟩ | ⟨_, _, _, _, e⟩ | ⟨_, _, _, _, e⟩ |
    ⟨_, _, _, _, _, _, e⟩ | ⟨_, _, _, _, _, _, e⟩ | ⟨_, e⟩ | ⟨_, e⟩
  case inl =>
    rcases hi with ⟨_, _, rfl, _⟩ | ⟨_, _, rfl, _⟩ | ⟨_, _, rfl, _⟩ | ⟨_, _, rfl, _⟩ |
      ⟨_, rfl, _⟩ <;> cases hd
  all_goals rw [e] at h; cases h; rfl

/-! ### What an instruction reads -/

/-- An ALU instruction overwrites CC without reading it. -/
theorem exec_setCc_of_aluDest {i : Instr} (hd : aluDest i ≠ none) (s : State) (c : CC) :
    exec i (s.setCc c) = exec i s := by
  cases i with
  | addR | addI | andR | andI | notR => rfl
  | ld | br | trapHalt | trapOut => exact absurd rfl hd

/-- LD and the TRAPs carry CC along unread. -/
theorem exec_setCc_of_no_aluDest {i : Instr} {s t : State} (hd : aluDest i = none)
    (hbr : ∀ n z p off9, i ≠ .br n z p off9) (h : exec i s = .next t) (c : CC) :
    exec i (s.setCc c) = .next (t.setCc c) := by
  cases i with
  | addR | addI | andR | andI | notR => cases hd
  | br n z p off => exact absurd rfl (hbr n z p off)
  | ld d off =>
    by_cases hb : s.mem.backed (pcRelative off s)
    · rw [exec_ld_backed hb] at h
      cases h
      exact exec_ld_backed (s := s.setCc c) hb
    · rw [exec_ld_unbacked hb] at h
      cases h
      exact exec_ld_unbacked (s := s.setCc c) hb
  | trapHalt => cases h; rfl
  | trapOut => cases h; rfl

/-- With another status an instruction gives the same state but for the status (R30). -/
theorem exec_setStatus {i : Instr} {s t : State} (h : exec i s = .next t) (x : Status) :
    ∃ y, exec i (s.setStatus x) = .next (t.setStatus y) := by
  cases i with
  | addR | addI | andR | andI | notR | trapOut => cases h; exact ⟨x, rfl⟩
  | ld d off =>
    by_cases hb : s.mem.backed (pcRelative off s)
    · rw [exec_ld_backed hb] at h
      cases h
      exact ⟨x, exec_ld_backed (s := s.setStatus x) hb⟩
    · rw [exec_ld_unbacked hb] at h
      cases h
      exact ⟨_, exec_ld_unbacked (s := s.setStatus x) hb⟩
  | br n z p off =>
    by_cases hc : branchTaken n z p s.cc = true
    · rw [exec_br_taken hc] at h
      cases h
      exact ⟨x, exec_br_taken (s := s.setStatus x) hc⟩
    · rw [exec_br_notTaken hc] at h
      cases h
      exact ⟨x, exec_br_notTaken (s := s.setStatus x) hc⟩
  | trapHalt => cases h; exact ⟨.halted, rfl⟩

/-! ### What a step does -/

/-- A Running state has a next state, whatever it fetches. -/
theorem step_next_of_running {s : State} (h : s.status = .running) : ∃ t, step s = .next t := by
  simp only [step, h]
  cases fetchWord s with
  | none => exact ⟨_, rfl⟩
  | some w =>
    simp only [decodeExecute]
    cases decode w with
    | known i => exact exec_next i _
    | unknown why => exact ⟨_, rfl⟩

theorem step_next_iff {s : State} : (∃ t, step s = .next t) ↔ s.status = .running :=
  ⟨fun ⟨_, h⟩ => (step_cases h).1, step_next_of_running⟩

theorem step_mem {s t : State} (h : step s = .next t) : t.mem = s.mem := by
  obtain ⟨-, ⟨-, rfl⟩ | ⟨-, _, -, rfl⟩ | ⟨-, i, -, he⟩⟩ := step_cases h
  · rfl
  · rfl
  · simpa using exec_mem he

/-- No TRAP HALT is the cause of a fault. -/
theorem CausesFault.not_trapHalt {s : State} {e : FaultReason} (h : CausesFault s e) :
    ¬ (s.mem.backed s.pc ∧ decode (wordAtPc s) = .known .trapHalt) := by
  rintro ⟨hb, hd⟩
  rcases h with ⟨hn, -⟩ | ⟨-, ⟨why, hu⟩, -⟩ | ⟨-, ⟨d, off, hl, -⟩, -⟩
  · exact hn hb
  · simp [hd] at hu
  · simp [hd] at hl

/-- The status after a step (R29): Halted from a TRAP HALT, which IR then holds, Faulted from a cause of
R120's table, and Running from every other instruction, which IR holds too. -/
theorem step_status_cases {s t : State} (h : step s = .next t) :
    (t.status = .halted ∧ s.mem.backed s.pc ∧ decode (wordAtPc s) = .known .trapHalt ∧
      t.ir = wordAtPc s) ∨
    (∃ reason, t.status = .faulted reason ∧ CausesFault s reason) ∨
    (t.status = .running ∧ decode (wordAtPc s) ≠ .known .trapHalt ∧ t.ir = wordAtPc s) := by
  obtain ⟨hrun, ⟨hb, rfl⟩ | ⟨hb, why, hd, rfl⟩ | ⟨hb, i, hd, he⟩⟩ := step_cases h
  · exact .inr (.inl ⟨_, rfl, .inl ⟨hb, rfl⟩⟩)
  · exact .inr (.inl ⟨_, rfl, .inr (.inl ⟨hb, ⟨why, hd⟩, rfl⟩)⟩)
  · have hir : t.ir = wordAtPc s := exec_ir he
    obtain ⟨rfl, hs⟩ | ⟨d, off, rfl, hn, hs⟩ | ⟨hi, hs⟩ := exec_status_cases he
    · exact .inl ⟨hs, hb, hd, hir⟩
    · exact .inr (.inl ⟨_, hs, .inr (.inr ⟨hb, ⟨d, off, hd, not_lt.mp hn⟩, rfl⟩)⟩)
    · exact .inr (.inr ⟨hs.trans hrun, fun hh => hi (Decoded.known.inj (hd.symm.trans hh)), hir⟩)

/-- PC after a step that does not fault (R23). -/
theorem step_pc_cases {s t : State} (h : step s = .next t)
    (hnf : ∀ reason, t.status ≠ .faulted reason) :
    t.pc = s.pc + 1 ∨
    ∃ n z p off9, decode (wordAtPc s) = .known (.br n z p off9) ∧
      branchTaken n z p s.cc = true ∧ t.pc = s.pc + 1 + sext16 off9 := by
  obtain ⟨-, ⟨-, rfl⟩ | ⟨-, _, -, rfl⟩ | ⟨-, i, hd, he⟩⟩ := step_cases h
  · exact absurd rfl (hnf _)
  · exact absurd rfl (hnf _)
  · obtain hpc | ⟨n, z, p, off, rfl, hc, hpc⟩ := exec_pc_cases he
    · exact .inl hpc
    · exact .inr ⟨n, z, p, off, hd, hc, hpc⟩

theorem afterLoad_pc (a : Int) (w : Word) (s : State) : (afterLoad a w s).pc = s.pc := by
  unfold afterLoad loadPort
  split_ifs <;> rfl

/-! ### Memory in canonical form (R28) -/

theorem readCells_of_unlisted {a : Nat} {cells : List (Nat × Word)} (h : ∀ c ∈ cells, c.1 ≠ a) :
    readCells cells a = unlistedWord := by
  induction cells with
  | nil => rfl
  | cons c rest ih =>
    rw [readCells, if_neg (h c List.mem_cons_self).symm]
    exact ih fun d hd => h d (List.mem_cons_of_mem _ hd)

/-- With rising addresses a listed cell is what its address reads as: no other cell hides it. -/
theorem readCells_of_mem {a : Nat} {v : Word} {cells : List (Nat × Word)}
    (hs : cells.Pairwise (fun x y => x.1 < y.1)) (h : (a, v) ∈ cells) :
    readCells cells a = v := by
  induction cells with
  | nil => cases h
  | cons c rest ih =>
    obtain ⟨hlt, hrest⟩ := List.pairwise_cons.mp hs
    rcases List.mem_cons.mp h with rfl | hmem
    · exact if_pos rfl
    · rw [readCells, if_neg (hlt _ hmem).ne']
      exact ih hrest hmem

/-- In canonical form the cells are exactly the addresses that do not read as unlisted. -/
theorem Memory.mem_cells_iff {m : Memory} (h : m.wf) (a : Nat) (v : Word) :
    (a, v) ∈ m.cells ↔ m.read a = v ∧ v ≠ unlistedWord := by
  obtain ⟨hs, hc, -, -⟩ := h
  refine ⟨fun hmem => ⟨readCells_of_mem hs hmem, (hc _ hmem).2⟩, ?_⟩
  rintro ⟨rfl, hv⟩
  by_contra hnot
  refine hv (readCells_of_unlisted fun c hmem hca => hnot ?_)
  obtain ⟨b, u⟩ := c
  obtain rfl : b = a := hca
  rwa [Memory.read, readCells_of_mem hs hmem]

theorem State.resetWith_inv {n : Nat} (init : RegInit) (hlo : 1 ≤ n) (hhi : n ≤ 65536) :
    (State.resetWith n init).Inv :=
  ⟨Memory.empty_wf hlo hhi, nofun⟩

/-! ### The statements -/

/-- Settles O57: memory is the same memory, and a step ends Halted only with a TRAP HALT in IR. -/
theorem everyStepKeepsTheInvariant : Obligations.EveryStepKeepsTheInvariant := by
  rintro s t ⟨hwf, -⟩ hstep
  refine ⟨by rwa [step_mem hstep], fun hhalt => ?_⟩
  obtain ⟨-, -, hd, hir⟩ | ⟨_, hf, -⟩ | ⟨hr, -, -⟩ := step_status_cases hstep
  · rwa [hir]
  · rw [hhalt] at hf; cases hf
  · rw [hhalt] at hr; cases hr

/-- Settles O16: an ALU instruction overwrites CC, LD and the TRAPs carry it along, and neither reads
it. -/
theorem conditionCodeIsReadByBranchOnly : Obligations.ConditionCodeIsReadByBranchOnly := by
  refine ⟨fun i s t h => ⟨fun d hd => exec_cc_of_aluDest hd h, fun hd => exec_cc_of_no_aluDest hd h⟩,
    fun i s t c hbr h => ?reads, rfl⟩
  case reads =>
    by_cases hd : aluDest i = none
    · exact ⟨_, exec_setCc_of_no_aluDest hd hbr h c, fun _ => rfl, rfl, rfl, ⟨rfl, fun _ => rfl⟩,
        rfl, rfl, (if_pos hd).symm⟩
    · exact ⟨t, (exec_setCc_of_aluDest hd s c).trans h, fun _ => rfl, rfl, rfl,
        ⟨rfl, fun _ => rfl⟩, rfl, rfl, (if_neg hd).symm⟩

/-- Settles O41, from the three ways a step can leave the status. -/
theorem statusIsEnteredAsTheRulesSay : Obligations.StatusIsEnteredAsTheRulesSay := by
  refine ⟨fun s => step_next_iff, fun s t h => ?halted, fun s t reason h hf => ?faulted, rfl⟩
  case halted =>
    obtain ⟨hs, hb, hd, -⟩ | ⟨_, hs, hc⟩ | ⟨hs, hd, -⟩ := step_status_cases h
    · exact iff_of_true hs ⟨hb, hd⟩
    · exact iff_of_false (by simp [hs]) hc.not_trapHalt
    · exact iff_of_false (by simp [hs]) fun hh => hd hh.2
  case faulted =>
    obtain ⟨hs, -⟩ | ⟨_, hs, hc⟩ | ⟨hs, -⟩ := step_status_cases h <;> rw [hs] at hf <;> cases hf
    exact hc

/-- Settles O46, from `exec_pc_cases` on the state after the fetch-advance. -/
theorem pcChangesOnlyByAdvanceAndBranch : Obligations.PcChangesOnlyByAdvanceAndBranch :=
  ⟨fun _ _ _ h hne => (exec_pc_cases h).resolve_left hne, fun _ _ => step_pc_cases,
    fun s a w => afterLoad_pc a w s⟩

/-- Settles O49: with another status the two next states differ in the status alone. -/
theorem statusIsReadByNoInstruction : Obligations.StatusIsReadByNoInstruction := by
  refine ⟨fun i s t x h => ?_, fun s => step_next_iff, fun s x => rfl⟩
  obtain ⟨y, hy⟩ := exec_setStatus h x
  exact ⟨_, hy, rfl, rfl, rfl, rfl, rfl, rfl⟩

/-- Settles O58: the cells of each are told by its readings, and a strictly rising list by its
members. -/
theorem canonicalMemoriesAreEqualWhenTheyReadEqual :
    Obligations.CanonicalMemoriesAreEqualWhenTheyReadEqual := by
  rintro ⟨cap, ms⟩ ⟨cap', ns⟩ hm hn hcap hread
  have hmem : ∀ c, c ∈ ms ↔ c ∈ ns := fun ⟨a, v⟩ =>
    calc (a, v) ∈ ms
      _ ↔ Memory.read ⟨cap, ms⟩ a = v ∧ v ≠ unlistedWord := Memory.mem_cells_iff hm a v
      _ ↔ Memory.read ⟨cap', ns⟩ a = v ∧ v ≠ unlistedWord := by rw [hread a]
      _ ↔ (a, v) ∈ ns := (Memory.mem_cells_iff hn a v).symm
  have : Std.Irrefl (fun x y : Nat × Word => x.1 < y.1) := ⟨fun x => lt_irrefl x.1⟩
  have : Std.Antisymm (fun x y : Nat × Word => x.1 < y.1) :=
    ⟨fun _ _ hxy hyx => absurd hxy hyx.asymm⟩
  exact congrArg₂ Memory.mk hcap (hm.1.eq_of_mem_iff hn.1 hmem)

/-- Settles O13: `setReg` at the same and at another register, and the register fields' indices. -/
theorem registersAreSeparateCells : Obligations.RegistersAreSeparateCells := by
  refine ⟨fun s r q v => ?cell, fun r => ⟨r.index_lt, r.ofBits_toBits, r.toNat_toBits⟩,
    fun r q => Reg.index_injective, fun k hk => ?onto⟩
  case cell =>
    split_ifs with h
    · rw [h, State.setReg_reg_same]
    · exact State.setReg_reg_ne v s h
  case onto =>
    exact ⟨Reg.ofBits (BitVec.ofNat 3 k), by
      rw [Reg.index_ofBits, BitVec.toNat_ofNat, Nat.mod_eq_of_lt hk]⟩

/-- Settles O56: the empty memory is canonical, and reset is not Halted. -/
theorem resetMeetsTheInvariant : Obligations.ResetMeetsTheInvariant :=
  ⟨State.resetWith_inv _ (by decide) (by decide), fun _ init => State.resetWith_inv init⟩

end Sys2Proof.Machine

/-! PROOFS. Memory (20_memory.md R40 to R44): the bounds check of a read, the load port's write, the frame
of every instruction and of a whole run, and the statements about them. -/

namespace Sys2Proof.Machine

/-! ### What an instruction and a run keep -/

/-- A register that is not the destination is kept. -/
theorem exec_reg_of_not_dest {i : Instr} {s t : State} {r : Reg} (hr : destReg i ≠ some r)
    (h : exec i s = .next t) : t.reg r = s.reg r := by
  cases i with
  | addR d | addI d | andR d | andI d | notR d =>
    have hne : r ≠ d := fun e => hr (congrArg some e.symm)
    cases h
    exact aluWrite_reg_ne _ s hne
  | ld d off =>
    have hne : r ≠ d := fun e => hr (congrArg some e.symm)
    by_cases hb : s.mem.backed (pcRelative off s)
    · rw [exec_ld_backed hb] at h
      cases h
      exact State.setReg_reg_ne _ s hne
    · rw [exec_ld_unbacked hb] at h
      cases h
      exact raiseFault_reg _ s r
  | br n z p off =>
    by_cases hc : branchTaken n z p s.cc = true
    · rw [exec_br_taken hc] at h
      cases h
      exact State.setPc_reg _ r s
    · rw [exec_br_notTaken hc] at h
      cases h
      rfl
  | trapHalt => cases h; exact State.setStatus_reg _ r s
  | trapOut => cases h; exact State.emit_reg _ r s

/-- What every step keeps, a call of the step port keeps: where no step is enabled it changes nothing. -/
theorem stepPort_keeps {P : State → Prop} (hstep : ∀ {s t}, P s → step s = .next t → P t) {s : State}
    (h : P s) : P (stepPort s) := by
  unfold stepPort
  split
  case h_1 t ht => exact hstep h ht
  all_goals exact h

/-- What every step keeps, a run under any budget keeps. -/
theorem runFor_keeps {P : State → Prop} (hstep : ∀ {s t}, P s → step s = .next t → P t) (k : Nat)
    {s : State} (h : P s) : P (runFor k s) := by
  induction k generalizing s with
  | zero => exact h
  | succ k ih =>
    unfold runFor
    split_ifs
    · exact ih (stepPort_keeps hstep h)
    · exact h

theorem runFor_mem (k : Nat) (s : State) : (runFor k s).mem = s.mem :=
  runFor_keeps (P := fun u => u.mem = s.mem) (fun h hs => (step_mem hs).trans h) k rfl

/-! ### The load port (R33, R44) -/

theorem loadPort_backed {s : State} {a : Nat} (w : Word) (h : a < s.mem.capacity) :
    loadPort a w s = .ok (s.setMem (s.mem.write a w)) := if_pos (by omega)

theorem loadPort_unbacked {s : State} {a : Int} (w : Word)
    (h : a < 0 ∨ (s.mem.capacity : Int) ≤ a) : loadPort a w s = .error .rangeError :=
  if_neg (by omega)

/-! ### A read outside memory inside a step (R42) -/

theorem step_fetch_unbacked {s : State} (hrun : s.status = .running) (h : ¬ s.mem.backed s.pc) :
    step s = .next (raiseFault .addressOutOfRange s) := by
  simp only [step, hrun, fetchWord, memRead_unbacked h]

/-! ### The statements -/

/-- Settles O47: `exec_mem` for memory and `exec_reg_of_not_dest` for the registers. -/
theorem registerFrameOfEveryInstruction : Obligations.RegisterFrameOfEveryInstruction := by
  intro i s
  obtain ⟨t, h⟩ := exec_next i s
  have hmem : t.mem = s.mem := exec_mem h
  exact ⟨t, h, ⟨by rw [hmem], fun a => by rw [hmem]⟩, fun r hr => exec_reg_of_not_dest hr h⟩

/-- Settles O51: the load port is one `Memory.write` within the capacity, and every step keeps
memory. -/
theorem onlyTheLoadPortWritesMemory : Obligations.OnlyTheLoadPortWritesMemory :=
  ⟨fun s a w h => ⟨_, loadPort_backed w h, rfl, Memory.read_write s.mem a w⟩,
    fun _ _ w h => loadPort_unbacked w h, fun _ _ _ => exec_mem, runFor_mem⟩

/-- Settles O52: the two cases of `memRead`, and the fault each of its callers takes in the second. -/
theorem memoryReadIsBoundsChecked : Obligations.MemoryReadIsBoundsChecked :=
  ⟨fun _ _ => memRead_backed, fun _ _ h => memRead_unbacked h.not_gt,
    fun _ hrun h => ⟨_, step_fetch_unbacked hrun h.not_gt, rfl⟩,
    fun _ _ _ h => ⟨_, exec_ld_unbacked h.not_gt, rfl⟩⟩

end Sys2Proof.Machine

/-! PROOFS. The encoding (30_encoding.md R57 to R65): the opcode map read from the opcode's value, the
field table read from the lemmas `decode_eq_…`, the immediate operand, and the statements about them. -/

namespace Sys2Proof

/-! ### Fields read as numbers and as bits (R57) -/

theorem opcodeField_eq_iff {w : Word} {n : Nat} (hn : n < 16) :
    opcodeField w = BitVec.ofNat 4 n ↔ uint w / 4096 = n := by
  rw [← BitVec.toNat_inj, opcodeField_toNat, BitVec.toNat_ofNat, Nat.mod_eq_of_lt hn]

theorem trapVectorField_eq_iff {w : Word} {n : Nat} (hn : n < 256) :
    trapVectorField w = BitVec.ofNat 8 n ↔ uint w % 256 = n := by
  rw [← BitVec.toNat_inj, trapVectorField_toNat, BitVec.toNat_ofNat, Nat.mod_eq_of_lt hn]

theorem modeField_eq_true_iff {w : Word} : modeField w = true ↔ uint w / 32 % 2 = 1 := by
  rw [modeField_eq, decide_eq_true_iff]

theorem modeField_eq_false_iff {w : Word} : modeField w = false ↔ uint w / 32 % 2 = 0 := by
  rw [modeField_eq, decide_eq_false_iff_not, uint]
  omega

theorem Reg.index_ofBits_ofNat {k : Nat} (hk : k < 8) :
    (Reg.ofBits (BitVec.ofNat 3 k)).index = k := by
  rw [Reg.index_ofBits, BitVec.toNat_ofNat, Nat.mod_eq_of_lt hk]

theorem getLsbD_bits (w : Word) {hi lo k : Nat} (hk : k < hi - lo + 1) :
    (bits w hi lo).getLsbD k = w.getLsbD (lo + k) := by
  simp [Nat.le_of_lt_succ hk]

theorem getLsbD_fieldAt {n : Nat} (lo : Nat) (v : BitVec n) {k : Nat} (hk : k < 16) :
    (fieldAt lo v).getLsbD k = (decide (lo ≤ k) && v.getLsbD (k - lo)) := by
  simp [fieldAt, hk, ← decide_not]

/-! ### What the decoder answers for an opcode (R64, R65) -/

theorem decode_add {w : Word} (h : opcodeField w = 0x1#4) :
    (∃ d a b, decode w = .known (.addR d a b)) ∨ (∃ d a m, decode w = .known (.addI d a m)) := by
  cases hm : modeField w with
  | false => exact .inl ⟨_, _, _, decode_eq_addR.mpr ⟨h, hm, rfl, rfl, rfl⟩⟩
  | true => exact .inr ⟨_, _, _, decode_eq_addI.mpr ⟨h, hm, rfl, rfl, rfl⟩⟩

theorem decode_and {w : Word} (h : opcodeField w = 0x5#4) :
    (∃ d a b, decode w = .known (.andR d a b)) ∨ (∃ d a m, decode w = .known (.andI d a m)) := by
  cases hm : modeField w with
  | false => exact .inl ⟨_, _, _, decode_eq_andR.mpr ⟨h, hm, rfl, rfl, rfl⟩⟩
  | true => exact .inr ⟨_, _, _, decode_eq_andI.mpr ⟨h, hm, rfl, rfl, rfl⟩⟩

/-! ### The field table, per form -/

theorem fields_of_decode_registerMode {w : Word} {d a b : Reg}
    (h : decode w = .known (.addR d a b) ∨ decode w = .known (.andR d a b)) :
    modeField w = false ∧ drField w = d ∧ sr1Field w = a ∧ sr2Field w = b :=
  h.elim (fun h => (decode_eq_addR.mp h).2) (fun h => (decode_eq_andR.mp h).2)

theorem fields_of_decode_immediateMode {w : Word} {d a : Reg} {m : BitVec 5}
    (h : decode w = .known (.addI d a m) ∨ decode w = .known (.andI d a m)) :
    modeField w = true ∧ drField w = d ∧ sr1Field w = a ∧ imm5Field w = m :=
  h.elim (fun h => (decode_eq_addI.mp h).2) (fun h => (decode_eq_andI.mp h).2)

/-- The word of a BR, bit by bit: its opcode 0000 adds none. -/
theorem getLsbD_encode_br (n z p : Bool) (off9 : BitVec 9) {k : Nat} (hk : k < 16) :
    (encode (.br n z p off9)).getLsbD k =
      (decide (k = 11) && n || decide (k = 10) && z || decide (k = 9) && p || off9.getLsbD k) := by
  have hbit (lo : Nat) (b : Bool) :
      (fieldAt lo (BitVec.ofBool b)).getLsbD k = (decide (k = lo) && b) := by
    have hat : (lo ≤ k ∧ k - lo = 0) ↔ k = lo := by omega
    rw [getLsbD_fieldAt _ _ hk, BitVec.getLsbD_ofBool, ← Bool.and_assoc, ← Bool.decide_and]
    simp only [hat]
  simp only [encode, BitVec.getLsbD_or, hbit, getLsbD_fieldAt _ _ hk]
  simp

/-- Every mask, 000 included, has a word (R63): the encoder's, field by field. -/
theorem decode_encode_br (n z p : Bool) (off9 : BitVec 9) :
    decode (encode (.br n z p off9)) = .known (.br n z p off9) := by
  refine decode_eq_br.mpr ⟨?opcode, ?n, ?z, ?p, ?offset⟩
  case opcode =>
    refine BitVec.eq_of_getLsbD_eq fun k hk => ?_
    have hne (j : Nat) (hj : j < 12) : 12 + k ≠ j := by omega
    rw [opcodeField, getLsbD_bits _ hk, getLsbD_encode_br _ _ _ _ (by omega)]
    simp [hne, BitVec.getLsbD_of_ge off9 (12 + k) (by omega)]
  case offset =>
    refine BitVec.eq_of_getLsbD_eq fun k hk => ?_
    have hne (j : Nat) (hj : 9 ≤ j) : k ≠ j := by omega
    rw [off9Field, getLsbD_bits _ hk, Nat.zero_add, getLsbD_encode_br _ _ _ _ (by omega)]
    simp [hne]
  all_goals
    rw [getLsbD_encode_br _ _ _ _ (by decide)]
    simp

/-! ### The statements about the decoder -/

/-- Settles O6: the opcode's and the vector's values pick the case of the decoder. -/
theorem opcodeMapAndTrapServices : Obligations.OpcodeMapAndTrapServices := by
  intro w
  refine ⟨fun h => ?br, fun h => decode_add ((opcodeField_eq_iff (by decide)).mpr h),
    fun h => ?ld, fun h => decode_and ((opcodeField_eq_iff (by decide)).mpr h), fun h => ?not,
    fun h hv => ?halt, fun h hv => ?out, fun h hhalt hout => ?vector, fun h => ?opcode⟩
  case br =>
    exact ⟨_, _, _, _, decode_eq_br.mpr
      ⟨(opcodeField_eq_iff (by decide)).mpr h, rfl, rfl, rfl, rfl⟩⟩
  case ld => exact ⟨_, _, decode_eq_ld.mpr ⟨(opcodeField_eq_iff (by decide)).mpr h, rfl, rfl⟩⟩
  case not => exact ⟨_, _, decode_eq_notR.mpr ⟨(opcodeField_eq_iff (by decide)).mpr h, rfl, rfl⟩⟩
  case halt =>
    exact decode_eq_trapHalt.mpr ⟨(opcodeField_eq_iff (by decide)).mpr h,
      (trapVectorField_eq_iff (by decide)).mpr hv⟩
  case out =>
    exact decode_eq_trapOut.mpr ⟨(opcodeField_eq_iff (by decide)).mpr h,
      (trapVectorField_eq_iff (by decide)).mpr hv⟩
  case vector =>
    exact decode_eq_unknown.mpr (.inl ⟨(opcodeField_eq_iff (by decide)).mpr h,
      (trapVectorField_eq_iff (by decide)).not.mpr hhalt,
      (trapVectorField_eq_iff (by decide)).not.mpr hout⟩)
  case opcode =>
    refine decode_eq_unknown.mpr (.inr ?_)
    simp only [List.mem_cons, List.not_mem_nil, or_false] at h
    simp only [ne_eq, opcodeField_eq_iff, Nat.reduceLT]
    omega

/-- Settles O7: the decoder's fields, each with its value by division. -/
theorem fieldsStandWhereTheTableSays : Obligations.FieldsStandWhereTheTableSays := by
  refine ⟨fun w d a b h => ?registerMode, fun w d a m h => ?immediateMode, fun w d a h => ?not,
    fun w d off9 h => ?ld, fun w n z p off9 h => ?br,
    fun n z p off9 => ⟨_, decode_encode_br n z p off9⟩, fun w _ => trapVectorField_toNat w,
    fun k hk => ⟨_, rfl, Reg.index_ofBits_ofNat hk⟩⟩
  case registerMode =>
    obtain ⟨hm, rfl, rfl, rfl⟩ := fields_of_decode_registerMode h
    exact ⟨modeField_eq_false_iff.mp hm, drField_index w, sr1Field_index w, sr2Field_index w⟩
  case immediateMode =>
    obtain ⟨hm, rfl, rfl, rfl⟩ := fields_of_decode_immediateMode h
    exact ⟨modeField_eq_true_iff.mp hm, drField_index w, sr1Field_index w, imm5Field_toNat w⟩
  case not =>
    obtain ⟨-, rfl, rfl⟩ := decode_eq_notR.mp h
    exact ⟨drField_index w, sr1Field_index w⟩
  case ld =>
    obtain ⟨-, rfl, rfl⟩ := decode_eq_ld.mp h
    exact ⟨drField_index w, off9Field_toNat w⟩
  case br =>
    obtain ⟨-, rfl, rfl, rfl, rfl⟩ := decode_eq_br.mp h
    exact ⟨rfl, rfl, rfl, off9Field_toNat w⟩

end Sys2Proof

namespace Sys2Proof.Machine

/-! ### The immediate operand (R60) -/

theorem immOperand_toInt (m : BitVec 5) : (immOperand m).toInt = m.toInt :=
  sext16_toInt m (by decide)

/-- From bit 4 up the operand copies the top bit of imm5. -/
theorem getLsbD_immOperand_of_four_le (m : BitVec 5) {k : Nat} (hlo : 4 ≤ k) (hhi : k < 16) :
    (immOperand m).getLsbD k = m.getLsbD 4 := by
  have hbit : (if k < 5 then k else 5 - 1) = 4 := by split_ifs <;> omega
  rw [immOperand, getLsbD_sext16 m hhi, hbit]

/-- Settles O8: sign extension keeps the value of the five bits, and both instructions take it. -/
theorem immediateIsSignExtendedToSixteenBits :
    Obligations.ImmediateIsSignExtendedToSixteenBits := by
  refine ⟨fun w => ⟨imm5Field_toNat w, immOperand_toInt _, BitVec.le_toInt _,
    Int.le_of_lt_add_one (BitVec.toInt_lt (x := imm5Field w)), fun k hlo hhi => ?copies⟩,
    fun d a m s => ?operand⟩
  case copies =>
    rw [getLsbD_immOperand_of_four_le _ hlo hhi, imm5Field, getLsbD_bits w (by decide)]
  case operand =>
    exact ⟨_, _, rfl, aluWrite_reg_same d _ s, rfl, aluWrite_reg_same d _ s⟩

end Sys2Proof.Machine

/-! PROOFS. The engine (40_engine.md R75 to R87): what a step of a Running state is for each answer of
the fetch and the decoder, the run loop's rules, how a run ends or hangs, and the statements about
them. -/

namespace Sys2Proof.Machine

/-! ### A step after a backed fetch (R75, R78, R79) -/

theorem fetchWord_of_backed {s : State} (hb : s.mem.backed s.pc) : fetchWord s = some (wordAtPc s) :=
  memRead_backed hb

theorem step_of_known {s : State} {i : Instr} (hrun : s.status = .running)
    (hb : s.mem.backed s.pc) (hd : decode (wordAtPc s) = .known i) :
    step s = exec i (fetchAdvance (wordAtPc s) s) := by
  simp only [step, hrun, fetchWord_of_backed hb, decodeExecute, hd]

theorem step_of_unknown {s : State} {why : UnknownWord} (hrun : s.status = .running)
    (hb : s.mem.backed s.pc) (hd : decode (wordAtPc s) = .unknown why) :
    step s = .next (raiseFault .illegalInstruction (fetchAdvance (wordAtPc s) s)) := by
  simp only [step, hrun, fetchWord_of_backed hb, decodeExecute, hd]

/-! ### What the fetch-advance and fault entry keep (R84, R123) -/

theorem DataKept.refl (s : State) : DataKept s s :=
  ⟨fun _ => rfl, rfl, ⟨rfl, fun _ => rfl⟩, rfl⟩

theorem DataKept.fetchAdvance {s t : State} (h : DataKept s t) (w : Word) :
    DataKept s (fetchAdvance w t) := h

theorem DataKept.raiseFault {s t : State} (h : DataKept s t) (reason : FaultReason) :
    DataKept s (raiseFault reason t) := h

/-! ### The run loop (R85) -/

theorem stepPort_of_step {s t : State} (h : step s = .next t) : stepPort s = t := by
  simp only [stepPort, h]

theorem runFor_succ_of_step {s t : State} (h : step s = .next t) (k : Nat) :
    runFor (k + 1) s = runFor k t := by
  rw [runFor, if_pos (step_cases h).1, stepPort_of_step h]

theorem runFor_of_final {s : State} (h : Final s) (k : Nat) : runFor k s = s := by
  cases k with
  | zero => rfl
  | succ k => exact if_neg h

theorem runFor_add (m k : Nat) (s : State) : runFor (m + k) s = runFor k (runFor m s) := by
  induction m generalizing s with
  | zero => rw [Nat.zero_add, runFor]
  | succ m ih =>
    by_cases hs : s.status = .running
    · obtain ⟨t, ht⟩ := step_next_of_running hs
      rw [Nat.add_right_comm, runFor_succ_of_step ht, runFor_succ_of_step ht, ih]
    · simp only [runFor_of_final hs]

/-! ### How a run ends (R86, R89) -/

/-- A run ends in at most one state: a budget that covers both runs reaches both ends. -/
theorem RunEndsIn.unique {s t u : State} (ht : RunEndsIn s t) (hu : RunEndsIn s u) : t = u := by
  obtain ⟨hft, k, hk⟩ := ht
  obtain ⟨hfu, m, hm⟩ := hu
  calc t
    _ = runFor (k + m) s := by rw [runFor_add, hk, runFor_of_final hft]
    _ = runFor (m + k) s := by rw [Nat.add_comm]
    _ = u := by rw [runFor_add, hm, runFor_of_final hfu]

/-- A run that leaves Running does so by the step of a Running state on its way. -/
theorem exists_last_step {k : Nat} {s : State} (hs : s.status = .running)
    (hend : Final (runFor k s)) :
    ∃ j, (runFor j s).status = .running ∧ step (runFor j s) = .next (runFor k s) := by
  induction k generalizing s with
  | zero => exact absurd hs hend
  | succ k ih =>
    obtain ⟨t, ht⟩ := step_next_of_running hs
    rw [runFor_succ_of_step ht] at hend ⊢
    by_cases hrun : t.status = .running
    · obtain ⟨j, hj, hlast⟩ := ih hrun hend
      rw [← runFor_succ_of_step ht] at hj hlast
      exact ⟨j + 1, hj, hlast⟩
    · rw [runFor_of_final hrun]
      exact ⟨0, hs, ht⟩

/-- A step into a final state is a TRAP HALT or a fault of R120's table. -/
theorem step_to_final {s t : State} (h : step s = .next t) (hf : Final t) :
    (s.mem.backed s.pc ∧ decode (wordAtPc s) = .known .trapHalt ∧ t.status = .halted) ∨
    ∃ reason, CausesFault s reason ∧ t.status = .faulted reason := by
  obtain ⟨hs, hb, hd, -⟩ | ⟨reason, hs, hc⟩ | ⟨hs, -, -⟩ := step_status_cases h
  · exact .inl ⟨hb, hd, hs⟩
  · exact .inr ⟨reason, hc, hs⟩
  · exact absurd hs hf

theorem Final.goodEnd_or_badEnd {s : State} (h : Final s) : GoodEnd s ∨ BadEnd s := by
  cases hs : s.status with
  | running => exact absurd hs h
  | halted => exact .inl hs
  | faulted reason => exact .inr ⟨reason, hs⟩

/-! ### Hanging (R86) -/

theorem hangs_iff_no_end {s : State} : Hangs s ↔ ¬ ∃ t, RunEndsIn s t := by
  constructor
  · rintro hhang ⟨t, hf, k, rfl⟩
    exact hf (hhang k)
  · intro hnone k
    by_contra hk
    exact hnone ⟨runFor k s, hk, k, rfl⟩

/-- At a BRnzp #-1 with CC set: the state every step of the one-instruction loop finds again. -/
def AtSelfBranch (s : State) : Prop :=
  s.status = .running ∧ s.mem.backed s.pc ∧
    decode (wordAtPc s) = .known (.br true true true (-1#9)) ∧ s.cc ≠ .u

theorem branchTaken_nzp {c : CC} (h : c ≠ .u) : branchTaken true true true c = true := by
  cases c with
  | u => exact absurd rfl h
  | n | z | p => rfl

theorem advanced_add_sext16_neg_one (pc : Word) : pc + 1 + sext16 (-1#9) = pc := by
  have hsext : sext16 (-1#9) = -1 := by decide
  rw [hsext, add_neg_cancel_right]

/-- The step of a BRnzp #-1 with CC set writes IR and nothing else: PC comes back to the instruction. -/
theorem AtSelfBranch.step_eq {s : State} (h : AtSelfBranch s) :
    step s = .next (s.setIr (wordAtPc s)) := by
  obtain ⟨hrun, hb, hd, hcc⟩ := h
  have hpc : pcRelative (-1#9) (fetchAdvance (wordAtPc s) s) = s.pc :=
    advanced_add_sext16_neg_one s.pc
  rw [step_of_known hrun hb hd,
    exec_br_taken (s := fetchAdvance (wordAtPc s) s) (branchTaken_nzp hcc), hpc]
  rfl

theorem AtSelfBranch.of_step {s t : State} (h : AtSelfBranch s) (hstep : step s = .next t) :
    AtSelfBranch t := by
  rw [h.step_eq] at hstep
  cases hstep
  exact h

theorem AtSelfBranch.hangs {s : State} (h : AtSelfBranch s) : Hangs s := fun k =>
  (runFor_keeps AtSelfBranch.of_step k h).1

/-! ### The statements -/

/-- Settles O44: the run loop's rules, the last step of a run that ends, and the one-instruction loop
that never does. -/
theorem runEndsInOneStateOrHangs : Obligations.RunEndsInOneStateOrHangs := by
  refine ⟨fun _ => rfl, fun s t h => ⟨stepPort_of_step h, runFor_succ_of_step h⟩,
    fun s => runFor_of_final, runFor_add, fun s t u => RunEndsIn.unique,
    fun s t hs hend => ?lastStep, fun s t hend => hend.1.goodEnd_or_badEnd, fun s => hangs_iff_no_end,
    fun s hrun hb hd hcc => AtSelfBranch.hangs ⟨hrun, hb, hd, hcc⟩⟩
  case lastStep =>
    obtain ⟨hf, k, rfl⟩ := hend
    obtain ⟨j, hj, hlast⟩ := exists_last_step hs hf
    exact ⟨j, _, rfl, hj, hlast, step_to_final hlast hf⟩

/-- Settles O36: the fetch-advance is the two field updates the statement writes out. -/
theorem stepRunsTheDecodedInstruction : Obligations.StepRunsTheDecodedInstruction :=
  fun _ _ hrun hb hd => step_of_known hrun hb hd

/-- Settles O37: a fault at the fetch leaves the state but for the status, and one at the decoder comes
after a fetch-advance, which writes PC and IR alone. -/
theorem fetchAndDecodeFaults : Obligations.FetchAndDecodeFaults := by
  refine ⟨fun s hrun hb => ?fetch, fun s why hrun hb hd => ?decode⟩
  case fetch =>
    exact ⟨_, step_fetch_unbacked hrun hb.not_gt, rfl, (DataKept.refl s).raiseFault _⟩
  case decode =>
    exact ⟨_, step_of_unknown hrun hb hd, rfl, ((DataKept.refl s).fetchAdvance _).raiseFault _⟩

end Sys2Proof.Machine

/-! PROOFS. ADD, AND and NOT and the condition code (41_alu.md R90 to R97): which words a table row
matches, the modular sum with a signed immediate, `setcc` read from the sign, what an ALU write keeps,
and the statements about them. -/

namespace Sys2Proof

/-! ### The words of a table row's mask and match (R57, R64) -/

/-- A mask that covers the opcode fixes it to the match's. -/
theorem opcodeField_of_match {w mask row : Word} (h : w &&& mask = row)
    (hmask : opcodeField mask = BitVec.allOnes 4) : opcodeField w = opcodeField row := by
  have hand : opcodeField (w &&& mask) = opcodeField w &&& opcodeField mask :=
    BitVec.extractLsb_and
  rw [← h, hand, hmask, BitVec.and_allOnes]

/-- A mask that covers the mode bit fixes it to the match's. -/
theorem modeField_of_match {w mask row : Word} (h : w &&& mask = row)
    (hmask : modeField mask = true) : modeField w = modeField row := by
  have hand : modeField (w &&& mask) = (modeField w && modeField mask) := BitVec.getLsbD_and
  rw [← h, hand, hmask, Bool.and_true]

/-! ### Sums with a sign-extended operand (R93, R94) -/

/-- Adding a sign-extended operand adds its signed value modulo 2^16. -/
theorem toNat_add_sext16 {k : Nat} (x : Word) (v : BitVec k) (hk : k ≤ 16) :
    ((x + sext16 v).toNat : Int) = ((x.toNat : Int) + v.toInt) % 65536 := by
  have hmod : v.toInt % 65536 = ((sext16 v).toNat : Int) % 65536 := by
    rw [← sext16_toInt v hk, BitVec.toInt_eq_toNat_bmod]
    exact Int.bmod_emod
  rw [BitVec.toNat_add, ← Int.add_emod_emod, hmod, Int.add_emod_emod]
  rfl

end Sys2Proof

namespace Sys2Proof.Machine

/-! ### The sign of a word and `setcc` (R90) -/

theorem sint_neg_iff {v : Word} : sint v < 0 ↔ v.getLsbD 15 = true := by
  rw [← BitVec.msb_eq_getLsbD_last, BitVec.msb_eq_toInt, decide_eq_true_iff]

theorem sint_eq_zero_iff {v : Word} : sint v = 0 ↔ v = 0x0000#16 := by
  rw [← BitVec.toInt_inj, BitVec.toInt_zero]

theorem sint_pos_iff {v : Word} : 0 < sint v ↔ v.getLsbD 15 = false ∧ v ≠ 0x0000#16 := by
  rw [← Bool.not_eq_true, ← sint_neg_iff, ne_eq, ← sint_eq_zero_iff]
  omega

theorem setcc_eq_n_iff {v : Word} : setcc v = .n ↔ sint v < 0 := by
  rcases setcc_cases v with ⟨h, e⟩ | ⟨h, e⟩ | ⟨h, e⟩ <;>
    simp only [e, reduceCtorEq, true_iff, false_iff] <;> omega

theorem setcc_eq_z_iff {v : Word} : setcc v = .z ↔ sint v = 0 := by
  rcases setcc_cases v with ⟨h, e⟩ | ⟨h, e⟩ | ⟨h, e⟩ <;>
    simp only [e, reduceCtorEq, true_iff, false_iff] <;> omega

theorem setcc_eq_p_iff {v : Word} : setcc v = .p ↔ 0 < sint v := by
  rcases setcc_cases v with ⟨h, e⟩ | ⟨h, e⟩ | ⟨h, e⟩ <;>
    simp only [e, reduceCtorEq, true_iff, false_iff] <;> omega

/-! ### The ALU instructions, each an `aluWrite` of its result (R93 to R97) -/

theorem exec_addR (d a b : Reg) (s : State) :
    exec (.addR d a b) s = .next (aluWrite d (s.reg a + s.reg b) s) := rfl

theorem exec_addI (d a : Reg) (m : BitVec 5) (s : State) :
    exec (.addI d a m) s = .next (aluWrite d (s.reg a + immOperand m) s) := rfl

theorem exec_andR (d a b : Reg) (s : State) :
    exec (.andR d a b) s = .next (aluWrite d (s.reg a &&& s.reg b) s) := rfl

theorem exec_andI (d a : Reg) (m : BitVec 5) (s : State) :
    exec (.andI d a m) s = .next (aluWrite d (s.reg a &&& immOperand m) s) := rfl

theorem exec_notR (d a : Reg) (s : State) :
    exec (.notR d a) s = .next (aluWrite d (invert (s.reg a)) s) := rfl

/-! ### What an ALU write leaves (R91, R93 to R97) -/

theorem aluWrite_cc_eq_setcc_reg (d : Reg) (r : Word) (s : State) :
    (aluWrite d r s).cc = setcc ((aluWrite d r s).reg d) := by
  rw [aluWrite_reg_same, aluWrite_cc]

theorem keptButRegAndCc_aluWrite (d : Reg) (r : Word) (s : State) :
    KeptButRegAndCc d s (aluWrite d r s) :=
  ⟨fun _ hne => aluWrite_reg_ne r s hne, rfl, rfl, ⟨rfl, fun _ => rfl⟩, rfl, rfl⟩

/-- An instruction that is an ALU write of `r` completes with all that the statements about ADD, AND
and NOT say in common: `r` in DR, CC set from it, the rest kept. -/
theorem next_of_exec_eq_aluWrite {i : Instr} {d : Reg} {r : Word} {s : State}
    (h : exec i s = .next (aluWrite d r s)) :
    ∃ t, exec i s = .next t ∧ t.reg d = r ∧ t.cc = setcc (t.reg d) ∧ KeptButRegAndCc d s t :=
  ⟨_, h, aluWrite_reg_same d r s, aluWrite_cc_eq_setcc_reg d r s, keptButRegAndCc_aluWrite d r s⟩

/-- The operand of AND's immediate mode, bit by bit: from bit 4 up the top bit of imm5 (R96). -/
theorem getLsbD_immOperand (m : BitVec 5) {k : Nat} (hk : k < 16) :
    (immOperand m).getLsbD k = m.getLsbD (if k < 4 then k else 4) := by
  split_ifs with hlo
  · rw [immOperand, getLsbD_sext16 m hk, if_pos (by omega)]
  · exact getLsbD_immOperand_of_four_le m (by omega) hk

/-! ### The statements -/

/-- Settles O15: an instruction with an ALU destination sets CC from it, and any other keeps CC. -/
theorem conditionCodeIsWrittenByAluOnly : Obligations.ConditionCodeIsWrittenByAluOnly := by
  intro i s
  obtain ⟨t, h⟩ := exec_next i s
  exact ⟨t, h, fun d hd => exec_cc_of_aluDest hd h, fun hd => exec_cc_of_no_aluDest hd h⟩

/-- Settles O14: `setcc` is told by the signed value, and that value's sign by bit 15 and zero. -/
theorem setccIsTheThreeWaySign : Obligations.SetccIsTheThreeWaySign := fun v =>
  ⟨setcc_eq_n_iff, setcc_eq_z_iff, setcc_eq_p_iff, setcc_eq_n_iff.trans sint_neg_iff,
    setcc_eq_z_iff.trans sint_eq_zero_iff, setcc_eq_p_iff.trans sint_pos_iff, setcc_ne_u v⟩

/-- Settles O17: the ALU write of the sum of two registers. -/
theorem addRegisterWritesTheSum : Obligations.AddRegisterWritesTheSum := by
  refine ⟨fun w h => ?encoding, fun d a b s => ?effect⟩
  case encoding =>
    exact ⟨_, _, _, decode_eq_addR.mpr
      ⟨opcodeField_of_match h rfl, modeField_of_match h rfl, rfl, rfl, rfl⟩,
      drField_index w, sr1Field_index w, sr2Field_index w⟩
  case effect =>
    obtain ⟨t, hexec, hreg, hrest⟩ := next_of_exec_eq_aluWrite (exec_addR d a b s)
    exact ⟨t, hexec, by rw [hreg]; exact BitVec.toNat_add _ _, hrest⟩

/-- Settles O18: the ALU write of the sum with the signed immediate. -/
theorem addImmediateWritesTheSum : Obligations.AddImmediateWritesTheSum := by
  refine ⟨fun w h => ?encoding, fun d a m s => ?effect⟩
  case encoding =>
    exact ⟨_, _, _, decode_eq_addI.mpr
      ⟨opcodeField_of_match h rfl, modeField_of_match h rfl, rfl, rfl, rfl⟩,
      drField_index w, sr1Field_index w, imm5Field_toNat w⟩
  case effect =>
    obtain ⟨t, hexec, hreg, hrest⟩ := next_of_exec_eq_aluWrite (exec_addI d a m s)
    exact ⟨t, hexec, by rw [hreg]; exact toNat_add_sext16 _ m (by decide), hrest⟩

/-- Settles O19: the ALU write of the AND of two registers. -/
theorem andRegisterIsBitwise : Obligations.AndRegisterIsBitwise := by
  refine ⟨fun w h => ?encoding, fun d a b s => ?effect⟩
  case encoding =>
    exact ⟨_, _, _, decode_eq_andR.mpr
      ⟨opcodeField_of_match h rfl, modeField_of_match h rfl, rfl, rfl, rfl⟩,
      drField_index w, sr1Field_index w, sr2Field_index w⟩
  case effect =>
    obtain ⟨t, hexec, hreg, hrest⟩ := next_of_exec_eq_aluWrite (exec_andR d a b s)
    exact ⟨t, hexec, fun k _ => by rw [hreg, BitVec.getLsbD_and], hrest⟩

/-- Settles O20: the ALU write of the AND with the immediate, extended to 16 bits. -/
theorem andImmediateIsBitwise : Obligations.AndImmediateIsBitwise := by
  refine ⟨fun w h => ?encoding, fun d a m s => ?effect⟩
  case encoding =>
    exact ⟨_, _, _, decode_eq_andI.mpr
      ⟨opcodeField_of_match h rfl, modeField_of_match h rfl, rfl, rfl, rfl⟩,
      drField_index w, sr1Field_index w, imm5Field_toNat w⟩
  case effect =>
    obtain ⟨t, hexec, hreg, hrest⟩ := next_of_exec_eq_aluWrite (exec_andI d a m s)
    exact ⟨t, hexec, fun k hk => by rw [hreg, BitVec.getLsbD_and, getLsbD_immOperand m hk], hrest⟩

/-- Settles O21: the ALU write of the inverted register. -/
theorem notFlipsEveryBit : Obligations.NotFlipsEveryBit := by
  refine ⟨fun w h => ?encoding, fun d a s => ?effect⟩
  case encoding =>
    exact ⟨_, _, decode_eq_notR.mpr ⟨opcodeField_of_match h rfl, rfl, rfl⟩,
      drField_index w, sr1Field_index w⟩
  case effect =>
    obtain ⟨t, hexec, hreg, hrest⟩ := next_of_exec_eq_aluWrite (exec_notR d a s)
    exact ⟨t, hexec, fun k hk => by rw [hreg, getLsbD_invert _ hk], hrest⟩

end Sys2Proof.Machine

/-! PROOFS. LD (42_load.md R100 to R102): its target as an integer, what a backed load leaves, ADD with 0
after it, and the statements about them. -/

namespace Sys2Proof.Machine

/-! ### The target (R100, decision D3) -/

/-- The PC-relative address is the sum of PC and the signed offset modulo 2^16. -/
theorem pcRelative_toNat (off9 : BitVec 9) (s : State) :
    (uint (pcRelative off9 s) : Int) = ((uint s.pc : Int) + sint off9) % 65536 :=
  toNat_add_sext16 s.pc off9 (by decide)

/-! ### What an LD leaves (R100, R102) -/

theorem keptButRegAndCc_setReg (d : Reg) (v : Word) (s : State) :
    KeptButRegAndCc d s (s.setReg d v) :=
  ⟨fun _ hne => State.setReg_reg_ne v s hne, rfl, rfl, ⟨rfl, fun _ => rfl⟩, rfl, rfl⟩

/-! ### ADD with immediate 0 (R99, R102) -/

theorem add_immOperand_zero (v : Word) : v + immOperand 0#5 = v := BitVec.add_zero v

/-- ADD DR,SR1,#0 copies SR1 to DR and sets CC from it. -/
theorem exec_addI_zero (d a : Reg) (s : State) :
    exec (.addI d a 0#5) s = .next (aluWrite d (s.reg a) s) := by
  rw [exec_addI, add_immOperand_zero]

/-! ### The statements -/

/-- Settles O24: the integer target is `pcRelative`, and a backed LD is a `setReg` of the word there. -/
theorem loadReadsTheBackedWord : Obligations.LoadReadsTheBackedWord := by
  refine ⟨fun w h => ?encoding, fun d off9 s ea hea hbacked => ?effect⟩
  case encoding =>
    exact ⟨_, _, decode_eq_ld.mpr ⟨opcodeField_of_match h rfl, rfl, rfl⟩,
      drField_index w, off9Field_toNat w⟩
  case effect =>
    obtain rfl : ea = uint (pcRelative off9 s) :=
      Int.ofNat_inj.mp (hea.trans (pcRelative_toNat off9 s).symm)
    exact ⟨_, exec_ld_backed hbacked, State.setReg_reg_same d _ s,
      keptButRegAndCc_setReg d _ s, State.setReg_cc d _ s⟩

/-- Settles O26: LD has no ALU destination, so it keeps CC; after a backed LD, ADD DR,DR,#0 is an ALU
write of the loaded word. -/
theorem loadLeavesTheConditionCode : Obligations.LoadLeavesTheConditionCode := by
  refine ⟨fun d off9 s => ?keeps, fun d off9 s hbacked => ?follow⟩
  case keeps =>
    obtain ⟨t, h⟩ := exec_next (.ld d off9) s
    exact ⟨t, h, exec_cc_of_no_aluDest rfl h⟩
  case follow =>
    refine ⟨_, _, exec_ld_backed hbacked, exec_addI_zero d d _, ?_, ?_⟩
    · rw [aluWrite_reg_same, State.setReg_reg_same]
    · rw [aluWrite_cc, State.setReg_reg_same]

end Sys2Proof.Machine

/-! PROOFS. BR (43_branch.md R105 to R109): when it is taken, all that it leaves and the PC it writes,
and the statements about it. -/

namespace Sys2Proof.Machine

/-! ### When a BR is taken (R105, R108) -/

theorem branchTaken_iff {n z p : Bool} {c : CC} :
    branchTaken n z p c = true ↔ (n = true ∧ c = .n) ∨ (z = true ∧ c = .z) ∨ (p = true ∧ c = .p) := by
  cases c <;> simp [branchTaken]

theorem not_branchTaken_of_noFlags (c : CC) : ¬ branchTaken false false false c = true := by
  simp [branchTaken_iff]

/-- U is no flag a mask can request. -/
theorem not_branchTaken_of_u (n z p : Bool) : ¬ branchTaken n z p .u = true := Bool.false_ne_true

/-! ### What a BR writes (R105, R106, R109; decision D3) -/

/-- What a BR adds to the advanced PC: nothing when it is not taken. -/
def branchOffset (n z p : Bool) (off9 : BitVec 9) (c : CC) : Int :=
  if branchTaken n z p c = true then sint off9 else 0

theorem branchOffset_eq (n z p : Bool) (off9 : BitVec 9) (c : CC) :
    branchOffset n z p off9 c =
      if (n = true ∧ c = .n) ∨ (z = true ∧ c = .z) ∨ (p = true ∧ c = .p) then sint off9 else 0 := by
  simp only [branchOffset, branchTaken_iff]

theorem DataKept.setPc {s t : State} (h : DataKept s t) (v : Word) : DataKept s (t.setPc v) := h

/-- A BR completes in every state, adds its offset to PC and keeps all else. -/
theorem exec_br_next (n z p : Bool) (off9 : BitVec 9) (s : State) :
    ∃ t, exec (.br n z p off9) s = .next t ∧
      (uint t.pc : Int) = ((uint s.pc : Int) + branchOffset n z p off9 s.cc) % 65536 ∧
      t.ir = s.ir ∧ t.status = s.status ∧ DataKept s t := by
  by_cases hc : branchTaken n z p s.cc = true
  · refine ⟨_, exec_br_taken hc, ?_, rfl, rfl, (DataKept.refl s).setPc _⟩
    rw [branchOffset, if_pos hc]
    exact pcRelative_toNat off9 s
  · refine ⟨s, exec_br_notTaken hc, ?_, rfl, rfl, DataKept.refl s⟩
    rw [branchOffset, if_neg hc]
    have hlt : uint s.pc < 65536 := s.pc.isLt
    omega

/-- The integer reading of the PC after a fetch-advance. -/
theorem fetchAdvance_pc_toNat (w : Word) (s : State) :
    (uint (fetchAdvance w s).pc : Int) = ((uint s.pc : Int) + 1) % 65536 := by
  exact_mod_cast BitVec.toNat_add s.pc 1

/-! ### The statements -/

/-- Settles O30: the step is `exec` after the fetch-advance, whose PC the BR's offset is added to. -/
theorem branchStepTarget : Obligations.BranchStepTarget := by
  intro s n z p off9 hrun hb hd
  obtain ⟨t, hexec, hpc, hir, hstatus, hdata⟩ :=
    exec_br_next n z p off9 (fetchAdvance (wordAtPc s) s)
  refine ⟨t, (step_of_known hrun hb hd).trans hexec, hstatus.trans hrun, hir, hdata, ?_⟩
  rw [hpc, fetchAdvance_pc_toNat, Int.emod_add_emod, fetchAdvance_cc, branchOffset_eq]

/-- Settles O28: the requested flags are `branchTaken`, and U is none of them. -/
theorem branchTakenOnRequestedFlag : Obligations.BranchTakenOnRequestedFlag := by
  refine ⟨fun w h => ?encoding, fun n z p off9 s h => ?taken,
    fun n z p off9 s h => exec_br_notTaken (branchTaken_iff.not.mpr h), fun n z p off9 s hu => ?unset⟩
  case encoding =>
    exact ⟨_, decode_eq_br.mpr ⟨opcodeField_of_match h rfl, rfl, rfl, rfl, rfl⟩, off9Field_toNat w⟩
  case taken =>
    obtain ⟨t, hexec, hpc, hrest⟩ := exec_br_next n z p off9 s
    rw [branchOffset_eq, if_pos h] at hpc
    exact ⟨t, hexec, hpc, hrest⟩
  case unset => exact exec_br_notTaken (by rw [hu]; exact not_branchTaken_of_u n z p)

/-- Settles O29: the frame of every BR, and with mask 000 it is not taken. -/
theorem branchWritesOnlyThePc : Obligations.BranchWritesOnlyThePc := by
  refine ⟨fun n z p off9 s => ?frame, fun off9 s => ?noFlags⟩
  case frame =>
    obtain ⟨t, hexec, -, hir, hstatus, hregs, hcc, hmem, hout⟩ := exec_br_next n z p off9 s
    exact ⟨t, hexec, hregs, hcc, hmem, hstatus, hir, hout⟩
  case noFlags => exact ⟨s, exec_br_notTaken (not_branchTaken_of_noFlags s.cc), rfl⟩

end Sys2Proof.Machine

/-! PROOFS. TRAP (44_trap.md R110 to R116): the words of a vector, the one element of the state each
service writes, and the statements about them. -/

namespace Sys2Proof

/-! ### The vector of a table row's mask and match (R57, R65) -/

/-- A mask that covers the vector fixes it to the match's. -/
theorem trapVectorField_of_match {w mask row : Word} (h : w &&& mask = row)
    (hmask : trapVectorField mask = BitVec.allOnes 8) :
    trapVectorField w = trapVectorField row := by
  have hand : trapVectorField (w &&& mask) = trapVectorField w &&& trapVectorField mask :=
    BitVec.extractLsb_and
  rw [← h, hand, hmask, BitVec.and_allOnes]

end Sys2Proof

namespace Sys2Proof.Machine

/-! ### What the two services write (R110, R112, R115) -/

theorem exec_trapHalt (s : State) : exec .trapHalt s = .next (s.setStatus .halted) := rfl

theorem exec_trapOut (s : State) : exec .trapOut s = .next (s.emit (bits (s.reg .r0) 7 0)) := rfl

theorem DataKept.setStatus {s t : State} (h : DataKept s t) (x : Status) :
    DataKept s (t.setStatus x) := h

theorem MemoryKept.refl (s : State) : MemoryKept s s := ⟨rfl, fun _ => rfl⟩

/-! ### The statements -/

/-- Settles O32: the mask fixes opcode and vector, and the halt is a `setStatus`. -/
theorem trapHaltHalts : Obligations.TrapHaltHalts := by
  refine ⟨fun w h => ?encoding, fun s => ?effect⟩
  case encoding =>
    exact decode_eq_trapHalt.mpr ⟨opcodeField_of_match h rfl, trapVectorField_of_match h rfl⟩
  case effect =>
    exact ⟨_, exec_trapHalt s, State.setStatus_status .halted s, State.setStatus_pc .halted s,
      State.setStatus_ir .halted s, (DataKept.refl s).setStatus .halted⟩

/-- Settles O34: HALT is a `setStatus` and OUT an `emit` of a code from R0, so memory is neither
read nor written; the step of an OUT is `exec` after the fetch-advance, which has put A + 1 in PC. -/
theorem trapServicesAreBuiltIn : Obligations.TrapServicesAreBuiltIn := by
  refine ⟨fun i s m hi => ?service, fun s hrun hb hd => ?stepOfOut⟩
  case service =>
    obtain rfl | rfl := hi
    · exact ⟨_, exec_trapHalt s, fun r => State.setStatus_reg .halted r s,
        State.setStatus_cc .halted s, MemoryKept.refl s, State.setStatus_pc .halted s,
        exec_trapHalt (s.setMem m)⟩
    · exact ⟨_, exec_trapOut s, fun r => State.emit_reg _ r s, State.emit_cc _ s,
        MemoryKept.refl s, State.emit_pc _ s, exec_trapOut (s.setMem m)⟩
  case stepOfOut =>
    exact ⟨_, (step_of_known hrun hb hd).trans (exec_trapOut _), hrun,
      fetchAdvance_pc (wordAtPc s) s⟩

/-- Settles O35: by the opcode map such a word is Unknown, and the step that fetches it takes the
decoder's fault. -/
theorem otherTrapVectorsAreIllegal : Obligations.OtherTrapVectorsAreIllegal := by
  intro w hopcode hhalt hout
  obtain ⟨-, -, -, -, -, -, -, hvector, -⟩ := opcodeMapAndTrapServices w
  obtain ⟨why, hd⟩ := hvector hopcode hhalt hout
  obtain ⟨-, hfault⟩ := fetchAndDecodeFaults
  exact ⟨⟨why, hd⟩, fun s hrun hb hw => hfault s why hrun hb (by rw [hw, hd])⟩

end Sys2Proof.Machine

/-! PROOFS. Faults and final states (60_exceptions.md R120, R123, R126): each row of the fault table
makes the step fault with its reason, no port leaves a final state, and the statements about them. -/

namespace Sys2Proof.Machine

/-! ### The fault table's rows taken by a step (R120) -/

/-- A step with a row of the fault table takes that row's fault, by its fetch, its decode or its LD. -/
theorem CausesFault.status_of_step {s t : State} {reason : FaultReason} (hc : CausesFault s reason)
    (hstep : step s = .next t) : t.status = .faulted reason := by
  have hrun : s.status = .running := (step_cases hstep).1
  obtain ⟨hb, rfl⟩ | ⟨hb, ⟨why, hd⟩, rfl⟩ | ⟨hb, ⟨d, off, hd, hcap⟩, rfl⟩ := hc
  · rw [step_fetch_unbacked hrun hb] at hstep
    cases hstep
    exact raiseFault_status _ _
  · rw [step_of_unknown hrun hb hd] at hstep
    cases hstep
    exact raiseFault_status _ _
  · have htarget : ¬ (fetchAdvance (wordAtPc s) s).mem.backed
        (pcRelative off (fetchAdvance (wordAtPc s) s)) := hcap.not_gt
    rw [step_of_known hrun hb hd, exec_ld_unbacked htarget] at hstep
    cases hstep
    exact raiseFault_status _ _

/-! ### Final states are kept by every port (R33, R82, R126) -/

theorem Final.step_ne_next {s : State} (h : Final s) (t : State) : step s ≠ .next t :=
  fun hstep => h (step_cases hstep).1

theorem Final.of_raiseFault (reason : FaultReason) (s : State) : Final (raiseFault reason s) := nofun

theorem stepPort_of_final {s : State} (h : Final s) : stepPort s = s := by
  unfold stepPort
  split
  case h_1 t hstep => exact absurd hstep (h.step_ne_next t)
  all_goals rfl

theorem afterLoad_status (a : Int) (w : Word) (s : State) : (afterLoad a w s).status = s.status := by
  unfold afterLoad loadPort
  split_ifs <;> rfl

/-! ### The statements -/

/-- Settles O39: a step's Faulted status comes from a row of the table, and each row gives its own. -/
theorem stepFaultsExactlyAsTheTableSays : Obligations.StepFaultsExactlyAsTheTableSays := by
  obtain ⟨-, -, hcause, -⟩ := statusIsEnteredAsTheRulesSay
  exact fun s t hstep reason => ⟨hcause s t reason hstep, fun hc => hc.status_of_step hstep⟩

/-- Settles O42: no step is enabled in a final state, so its ports have nothing to take, and a load
writes memory alone; opcode 8 is one of the opcode map's Unknown ones. -/
theorem terminalStatesAreNeverLeft : Obligations.TerminalStatesAreNeverLeft := by
  refine ⟨fun s hf => ?kept, fun w hw => ?opcodeEight⟩
  case kept =>
    exact ⟨hf.step_ne_next, congrArg State.status (stepPort_of_final hf),
      fun k => congrArg State.status (runFor_of_final hf k), fun a w => afterLoad_status a w s⟩
  case opcodeEight =>
    obtain ⟨-, -, -, -, -, -, -, -, hunknown⟩ := opcodeMapAndTrapServices w
    exact hunknown (by simp [hw])

/-- Settles O38: fault entry is a `setStatus`, and the state it leaves is final. -/
theorem faultEntryChangesTheStatusOnly : Obligations.FaultEntryChangesTheStatusOnly :=
  fun reason s => ⟨raiseFault_status reason s, (DataKept.refl s).raiseFault reason,
    raiseFault_pc reason s, raiseFault_ir reason s, (Final.of_raiseFault reason s).step_ne_next⟩

end Sys2Proof.Machine

/-! PROOFS. The encoder and the assembler (30_encoding.md R67 to R74): the word of an instruction as the
sum of hand assembly, the round trip through the decoder, the bits a decoder's answer depends on, and
the statements about them. -/

namespace Sys2Proof

/-! ### A word built of fields is a sum (R73) -/

theorem uint_fieldAt {k : Nat} (lo : Nat) (v : BitVec k) (h : k + lo ≤ 16) :
    uint (fieldAt lo v) = uint v * 2 ^ lo := by
  have hv : v.toNat < 2 ^ k := v.isLt
  have hlt : v.toNat * 2 ^ lo < 2 ^ 16 :=
    calc v.toNat * 2 ^ lo
      _ < 2 ^ k * 2 ^ lo := Nat.mul_lt_mul_of_pos_right hv (by positivity)
      _ = 2 ^ (k + lo) := (pow_add 2 k lo).symm
      _ ≤ 2 ^ 16 := Nat.pow_le_pow_right (by decide) h
  have hk : 2 ^ k ≤ 2 ^ 16 := Nat.pow_le_pow_right (by decide) (by omega)
  rw [uint, fieldAt, BitVec.toNat_shiftLeft, BitVec.toNat_setWidth, Nat.shiftLeft_eq,
    Nat.mod_eq_of_lt (hv.trans_le hk), Nat.mod_eq_of_lt hlt]

/-- A field below all set bits of a word adds its value at its place. -/
theorem uint_or_fieldAt {k : Nat} {x : Word} {lo : Nat} (v : BitVec k) (h : k + lo ≤ 16)
    (hx : 2 ^ (k + lo) ∣ uint x) : uint (x ||| fieldAt lo v) = uint x + uint v * 2 ^ lo := by
  obtain ⟨q, hq⟩ := hx
  have hlt : uint v * 2 ^ lo < 2 ^ (k + lo) := by
    rw [pow_add]
    exact Nat.mul_lt_mul_of_pos_right v.isLt (by positivity)
  calc uint (x ||| fieldAt lo v)
    _ = uint x ||| uint v * 2 ^ lo := by
      rw [← uint_fieldAt lo v h]
      exact BitVec.toNat_or x _
    _ = uint x + uint v * 2 ^ lo := by rw [hq, Nat.two_pow_add_eq_or_of_lt hlt]

theorem uint_toBits (r : Reg) : uint r.toBits = r.index := r.toNat_toBits

theorem uint_opcode_dr (op : BitVec 4) (d : Reg) :
    uint (fieldAt 12 op ||| fieldAt 9 d.toBits) = uint op * 4096 + d.index * 512 := by
  have hop : uint (fieldAt 12 op) = uint op * 4096 := uint_fieldAt 12 op (by decide)
  rw [uint_or_fieldAt _ (by decide) (by omega), hop, uint_toBits]
  rfl

theorem uint_opcode_dr_sr1 (op : BitVec 4) (d a : Reg) :
    uint (fieldAt 12 op ||| fieldAt 9 d.toBits ||| fieldAt 6 a.toBits)
      = uint op * 4096 + d.index * 512 + a.index * 64 := by
  have hhigh := uint_opcode_dr op d
  rw [uint_or_fieldAt _ (by decide) (by omega), hhigh, uint_toBits]
  rfl

/-- ADD and AND in register mode differ in the opcode alone. -/
theorem uint_registerMode (op : BitVec 4) (d a b : Reg) :
    uint (fieldAt 12 op ||| fieldAt 9 d.toBits ||| fieldAt 6 a.toBits ||| fieldAt 0 b.toBits)
      = uint op * 4096 + d.index * 512 + a.index * 64 + b.index := by
  have hhigh := uint_opcode_dr_sr1 op d a
  rw [uint_or_fieldAt _ (by decide) (by omega), hhigh, uint_toBits, pow_zero, mul_one]

/-- ADD and AND in immediate mode: the mode bit adds 32. -/
theorem uint_immediateMode (op : BitVec 4) (d a : Reg) (m : BitVec 5) :
    uint (fieldAt 12 op ||| fieldAt 9 d.toBits ||| fieldAt 6 a.toBits ||| fieldAt 5 1#1
      ||| fieldAt 0 m) = uint op * 4096 + d.index * 512 + a.index * 64 + 32 + uint m := by
  have hhigh := uint_opcode_dr_sr1 op d a
  have hmode : uint (fieldAt 12 op ||| fieldAt 9 d.toBits ||| fieldAt 6 a.toBits ||| fieldAt 5 1#1)
      = uint op * 4096 + d.index * 512 + a.index * 64 + 32 := by
    rw [uint_or_fieldAt _ (by decide) (by omega), hhigh]
    rfl
  rw [uint_or_fieldAt _ (by decide) (by omega), hmode, pow_zero, mul_one]

theorem uint_encode_addR (d a b : Reg) :
    uint (encode (.addR d a b)) = 0x1000 + d.index * 512 + a.index * 64 + b.index :=
  uint_registerMode 0x1#4 d a b

theorem uint_encode_andR (d a b : Reg) :
    uint (encode (.andR d a b)) = 0x5000 + d.index * 512 + a.index * 64 + b.index :=
  uint_registerMode 0x5#4 d a b

theorem uint_encode_addI (d a : Reg) (m : BitVec 5) :
    uint (encode (.addI d a m)) = 0x1020 + d.index * 512 + a.index * 64 + uint m := by
  have hsum : uint (encode (.addI d a m)) = 1 * 4096 + _ + _ + 32 + _ :=
    uint_immediateMode 0x1#4 d a m
  omega

theorem uint_encode_andI (d a : Reg) (m : BitVec 5) :
    uint (encode (.andI d a m)) = 0x5020 + d.index * 512 + a.index * 64 + uint m := by
  have hsum : uint (encode (.andI d a m)) = 5 * 4096 + _ + _ + 32 + _ :=
    uint_immediateMode 0x5#4 d a m
  omega

theorem uint_encode_notR (d a : Reg) :
    uint (encode (.notR d a)) = 0x903F + d.index * 512 + a.index * 64 := by
  have hhigh : uint _ = 9 * 4096 + _ + _ := uint_opcode_dr_sr1 0x9#4 d a
  have hlow : uint 0x3F#6 * 2 ^ 0 = 63 := rfl
  rw [encode, uint_or_fieldAt _ (by decide) (by omega), hhigh, hlow]
  omega

theorem uint_encode_ld (d : Reg) (off9 : BitVec 9) :
    uint (encode (.ld d off9)) = 0x2000 + d.index * 512 + uint off9 := by
  have hhigh : uint _ = 0x2000 + _ := uint_opcode_dr 0x2#4 d
  rw [encode, uint_or_fieldAt _ (by decide) (by omega), hhigh, pow_zero, mul_one]

theorem uint_encode_br (n z p : Bool) (off9 : BitVec 9) :
    uint (encode (.br n z p off9))
      = n.toNat * 2048 + z.toNat * 1024 + p.toNat * 512 + uint off9 := by
  have hmask : uint (fieldAt 12 0x0#4 ||| fieldAt 11 (BitVec.ofBool n)
      ||| fieldAt 10 (BitVec.ofBool z) ||| fieldAt 9 (BitVec.ofBool p))
        = n.toNat * 2048 + z.toNat * 1024 + p.toNat * 512 := by
    cases n <;> cases z <;> cases p <;> rfl
  rw [encode, uint_or_fieldAt _ (by decide) (by omega), hmask, pow_zero, mul_one]

/-! ### Fields read back from the sum (R57, R68) -/

theorem drField_eq_iff {w : Word} {r : Reg} : drField w = r ↔ uint w / 512 % 8 = r.index := by
  rw [uint, ← drField_index]
  exact ⟨congrArg Reg.index, Reg.index_injective⟩

theorem sr1Field_eq_iff {w : Word} {r : Reg} : sr1Field w = r ↔ uint w / 64 % 8 = r.index := by
  rw [uint, ← sr1Field_index]
  exact ⟨congrArg Reg.index, Reg.index_injective⟩

theorem sr2Field_eq_iff {w : Word} {r : Reg} : sr2Field w = r ↔ uint w % 8 = r.index := by
  rw [uint, ← sr2Field_index]
  exact ⟨congrArg Reg.index, Reg.index_injective⟩

theorem imm5Field_eq_iff {w : Word} {m : BitVec 5} : imm5Field w = m ↔ uint w % 32 = uint m := by
  rw [← BitVec.toNat_inj, imm5Field_toNat]

theorem off9Field_eq_iff {w : Word} {o : BitVec 9} : off9Field w = o ↔ uint w % 512 = uint o := by
  rw [← BitVec.toNat_inj, off9Field_toNat]

/-- The fields of a register-mode word given as a sum. -/
theorem fields_of_registerMode_sum {w : Word} {op : Nat} {d a b : Reg} (hop : op < 16)
    (hw : uint w = op * 4096 + d.index * 512 + a.index * 64 + b.index) :
    opcodeField w = BitVec.ofNat 4 op ∧ modeField w = false ∧ drField w = d ∧ sr1Field w = a ∧
      sr2Field w = b := by
  have hd := d.index_lt
  have ha := a.index_lt
  have hb := b.index_lt
  rw [opcodeField_eq_iff hop, modeField_eq_false_iff, drField_eq_iff, sr1Field_eq_iff,
    sr2Field_eq_iff, hw]
  omega

/-- The fields of an immediate-mode word given as a sum. -/
theorem fields_of_immediateMode_sum {w : Word} {op : Nat} {d a : Reg} {m : BitVec 5} (hop : op < 16)
    (hw : uint w = op * 4096 + d.index * 512 + a.index * 64 + 32 + uint m) :
    opcodeField w = BitVec.ofNat 4 op ∧ modeField w = true ∧ drField w = d ∧ sr1Field w = a ∧
      imm5Field w = m := by
  have hd := d.index_lt
  have ha := a.index_lt
  have hm : uint m < 32 := m.isLt
  rw [opcodeField_eq_iff hop, modeField_eq_true_iff, drField_eq_iff, sr1Field_eq_iff,
    imm5Field_eq_iff, hw]
  omega

/-! ### The round trip (R68, R69) -/

/-- Every field of an encoded word is read back from its sum. -/
theorem decode_encode (i : Instr) : decode (encode i) = .known i := by
  cases i with
  | addR d a b =>
    exact decode_eq_addR.mpr
      (fields_of_registerMode_sum (by decide) (uint_registerMode 0x1#4 d a b))
  | addI d a m =>
    exact decode_eq_addI.mpr
      (fields_of_immediateMode_sum (by decide) (uint_immediateMode 0x1#4 d a m))
  | andR d a b =>
    exact decode_eq_andR.mpr
      (fields_of_registerMode_sum (by decide) (uint_registerMode 0x5#4 d a b))
  | andI d a m =>
    exact decode_eq_andI.mpr
      (fields_of_immediateMode_sum (by decide) (uint_immediateMode 0x5#4 d a m))
  | notR d a =>
    have hd := d.index_lt
    have ha := a.index_lt
    rw [decode_eq_notR, opcodeField_eq_iff (by decide), drField_eq_iff, sr1Field_eq_iff,
      uint_encode_notR]
    omega
  | ld d off9 =>
    have hd := d.index_lt
    have hoff : uint off9 < 512 := off9.isLt
    rw [decode_eq_ld, opcodeField_eq_iff (by decide), drField_eq_iff, off9Field_eq_iff,
      uint_encode_ld]
    omega
  | br n z p off9 => exact decode_encode_br n z p off9
  | trapHalt => decide
  | trapOut => decide

/-! ### Which bits a decoder's answer depends on (R67, decision D5) -/

/-- Two words agree on every bit a mask selects. -/
def AgreeOn (mask w v : Word) : Prop := ∀ k, mask.getLsbD k = true → w.getLsbD k = v.getLsbD k

theorem agreeOn_iff_and_eq {mask w v : Word} : AgreeOn mask w v ↔ w &&& mask = v &&& mask := by
  constructor
  · intro h
    refine BitVec.eq_of_getLsbD_eq fun k _ => ?_
    rw [BitVec.getLsbD_and, BitVec.getLsbD_and]
    cases hk : mask.getLsbD k with
    | false => rw [Bool.and_false, Bool.and_false]
    | true => rw [h k hk]
  · intro h k hk
    have hbit := congrArg (BitVec.getLsbD · k) h
    simpa only [BitVec.getLsbD_and, hk, Bool.and_true] using hbit

theorem agreeOn_or {m₁ m₂ w v : Word} :
    AgreeOn (m₁ ||| m₂) w v ↔ AgreeOn m₁ w v ∧ AgreeOn m₂ w v := by
  simp only [AgreeOn, BitVec.getLsbD_or, Bool.or_eq_true, or_imp, forall_and]

/-- Agreeing on a field's mask is agreeing on its bits. -/
theorem agreeOn_fieldAt_allOnes {n lo : Nat} {w v : Word} (h : n + lo ≤ 16) :
    AgreeOn (fieldAt lo (BitVec.allOnes n)) w v ↔
      ∀ j, j < n → w.getLsbD (lo + j) = v.getLsbD (lo + j) := by
  constructor
  · intro hag j hj
    refine hag _ ?_
    rw [getLsbD_fieldAt _ _ (by omega), Nat.add_sub_cancel_left, BitVec.getLsbD_allOnes]
    simp [hj]
  · intro hag k hk
    have hk16 : k < 16 := BitVec.lt_of_getLsbD hk
    rw [getLsbD_fieldAt _ _ hk16, BitVec.getLsbD_allOnes, Bool.and_eq_true, decide_eq_true_iff,
      decide_eq_true_iff] at hk
    obtain ⟨hlo, hlt⟩ := hk
    simpa only [Nat.add_sub_cancel' hlo] using hag (k - lo) hlt

theorem agreeOn_bits (hi lo : Nat) {w v : Word} (h : hi < 16) (hlo : lo ≤ hi) :
    AgreeOn (fieldAt lo (BitVec.allOnes (hi - lo + 1))) w v ↔ bits w hi lo = bits v hi lo := by
  rw [agreeOn_fieldAt_allOnes (by omega)]
  constructor
  · intro hag
    refine BitVec.eq_of_getLsbD_eq fun j hj => ?_
    rw [getLsbD_bits w hj, getLsbD_bits v hj, hag j hj]
  · intro heq j hj
    rw [← getLsbD_bits w hj, ← getLsbD_bits v hj, heq]

theorem agreeOn_bit (k : Nat) {w v : Word} (h : k < 16) :
    AgreeOn (fieldAt k (BitVec.allOnes 1)) w v ↔ w.getLsbD k = v.getLsbD k := by
  rw [agreeOn_fieldAt_allOnes (by omega)]
  refine ⟨fun hag => hag 0 (by decide), fun heq j hj => ?_⟩
  obtain rfl : j = 0 := by omega
  exact heq

theorem Reg.ofBits_inj {b c : BitVec 3} : Reg.ofBits b = Reg.ofBits c ↔ b = c := by
  rw [← BitVec.toNat_inj, ← Reg.index_ofBits, ← Reg.index_ofBits]
  exact ⟨congrArg Reg.index, Reg.index_injective⟩

section
variable {w v : Word}

theorem agreeOn_opcode : AgreeOn 0xF000#16 w v ↔ opcodeField w = opcodeField v :=
  agreeOn_bits 15 12 (by decide) (by decide)

theorem agreeOn_dr : AgreeOn 0x0E00#16 w v ↔ drField w = drField v :=
  (agreeOn_bits 11 9 (by decide) (by decide)).trans Reg.ofBits_inj.symm

theorem agreeOn_sr1 : AgreeOn 0x01C0#16 w v ↔ sr1Field w = sr1Field v :=
  (agreeOn_bits 8 6 (by decide) (by decide)).trans Reg.ofBits_inj.symm

theorem agreeOn_sr2 : AgreeOn 0x0007#16 w v ↔ sr2Field w = sr2Field v :=
  (agreeOn_bits 2 0 (by decide) (by decide)).trans Reg.ofBits_inj.symm

theorem agreeOn_mode : AgreeOn 0x0020#16 w v ↔ modeField w = modeField v :=
  agreeOn_bit 5 (by decide)

theorem agreeOn_imm5 : AgreeOn 0x001F#16 w v ↔ imm5Field w = imm5Field v :=
  agreeOn_bits 4 0 (by decide) (by decide)

theorem agreeOn_off9 : AgreeOn 0x01FF#16 w v ↔ off9Field w = off9Field v :=
  agreeOn_bits 8 0 (by decide) (by decide)

theorem agreeOn_trapVector : AgreeOn 0x00FF#16 w v ↔ trapVectorField w = trapVectorField v :=
  agreeOn_bits 7 0 (by decide) (by decide)

/-- Outside ir[4:3] a word is its opcode, mode and three registers. -/
theorem agreeOn_registerMode :
    AgreeOn (~~~ 0x0018#16) w v ↔ opcodeField w = opcodeField v ∧ modeField w = modeField v ∧
      drField w = drField v ∧ sr1Field w = sr1Field v ∧ sr2Field w = sr2Field v := by
  have hmask : ~~~ 0x0018#16 =
      0xF000#16 ||| (0x0020#16 ||| (0x0E00#16 ||| (0x01C0#16 ||| 0x0007#16))) := rfl
  rw [hmask, agreeOn_or, agreeOn_or, agreeOn_or, agreeOn_or, agreeOn_opcode, agreeOn_mode,
    agreeOn_dr, agreeOn_sr1, agreeOn_sr2]

/-- A word is its opcode, mode, two registers and imm5, with no bit left over. -/
theorem agreeOn_immediateMode :
    AgreeOn (~~~ 0x0000#16) w v ↔ opcodeField w = opcodeField v ∧ modeField w = modeField v ∧
      drField w = drField v ∧ sr1Field w = sr1Field v ∧ imm5Field w = imm5Field v := by
  have hmask : ~~~ 0x0000#16 =
      0xF000#16 ||| (0x0020#16 ||| (0x0E00#16 ||| (0x01C0#16 ||| 0x001F#16))) := rfl
  rw [hmask, agreeOn_or, agreeOn_or, agreeOn_or, agreeOn_or, agreeOn_opcode, agreeOn_mode,
    agreeOn_dr, agreeOn_sr1, agreeOn_imm5]

theorem agreeOn_ld :
    AgreeOn (~~~ 0x0000#16) w v ↔ opcodeField w = opcodeField v ∧ drField w = drField v ∧
      off9Field w = off9Field v := by
  have hmask : ~~~ 0x0000#16 = 0xF000#16 ||| (0x0E00#16 ||| 0x01FF#16) := rfl
  rw [hmask, agreeOn_or, agreeOn_or, agreeOn_opcode, agreeOn_dr, agreeOn_off9]

theorem agreeOn_not :
    AgreeOn (~~~ 0x003F#16) w v ↔ opcodeField w = opcodeField v ∧ drField w = drField v ∧
      sr1Field w = sr1Field v := by
  have hmask : ~~~ 0x003F#16 = 0xF000#16 ||| (0x0E00#16 ||| 0x01C0#16) := rfl
  rw [hmask, agreeOn_or, agreeOn_or, agreeOn_opcode, agreeOn_dr, agreeOn_sr1]

theorem agreeOn_br :
    AgreeOn (~~~ 0x0000#16) w v ↔ opcodeField w = opcodeField v ∧ w.getLsbD 11 = v.getLsbD 11 ∧
      w.getLsbD 10 = v.getLsbD 10 ∧ w.getLsbD 9 = v.getLsbD 9 ∧ off9Field w = off9Field v := by
  have hmask : ~~~ 0x0000#16 = 0xF000#16 ||| (fieldAt 11 (BitVec.allOnes 1) |||
    (fieldAt 10 (BitVec.allOnes 1) ||| (fieldAt 9 (BitVec.allOnes 1) ||| 0x01FF#16))) := rfl
  rw [hmask, agreeOn_or, agreeOn_or, agreeOn_or, agreeOn_or, agreeOn_opcode,
    agreeOn_bit 11 (by decide), agreeOn_bit 10 (by decide), agreeOn_bit 9 (by decide), agreeOn_off9]

theorem agreeOn_trap :
    AgreeOn (~~~ 0x0F00#16) w v ↔
      opcodeField w = opcodeField v ∧ trapVectorField w = trapVectorField v := by
  have hmask : ~~~ 0x0F00#16 = 0xF000#16 ||| 0x00FF#16 := rfl
  rw [hmask, agreeOn_or, agreeOn_opcode, agreeOn_trapVector]

/-- Beside a word that decodes to `i`, another one does exactly when the two agree on every bit that
`i`'s format uses. -/
theorem decode_eq_known_iff_agreeOn {i : Instr} (hv : decode v = .known i) :
    decode w = .known i ↔ AgreeOn (~~~ i.ignoredBits) w v := by
  cases i with
  | addR d a b =>
    obtain ⟨hop, hm, rfl, rfl, rfl⟩ := decode_eq_addR.mp hv
    rw [decode_eq_addR, ← hop, ← hm]
    exact agreeOn_registerMode.symm
  | addI d a m =>
    obtain ⟨hop, hm, rfl, rfl, rfl⟩ := decode_eq_addI.mp hv
    rw [decode_eq_addI, ← hop, ← hm]
    exact agreeOn_immediateMode.symm
  | ld d off9 =>
    obtain ⟨hop, rfl, rfl⟩ := decode_eq_ld.mp hv
    rw [decode_eq_ld, ← hop]
    exact agreeOn_ld.symm
  | andR d a b =>
    obtain ⟨hop, hm, rfl, rfl, rfl⟩ := decode_eq_andR.mp hv
    rw [decode_eq_andR, ← hop, ← hm]
    exact agreeOn_registerMode.symm
  | andI d a m =>
    obtain ⟨hop, hm, rfl, rfl, rfl⟩ := decode_eq_andI.mp hv
    rw [decode_eq_andI, ← hop, ← hm]
    exact agreeOn_immediateMode.symm
  | notR d a =>
    obtain ⟨hop, rfl, rfl⟩ := decode_eq_notR.mp hv
    rw [decode_eq_notR, ← hop]
    exact agreeOn_not.symm
  | br n z p off9 =>
    obtain ⟨hop, rfl, rfl, rfl, rfl⟩ := decode_eq_br.mp hv
    rw [decode_eq_br, ← hop]
    exact agreeOn_br.symm
  | trapHalt =>
    obtain ⟨hop, hvec⟩ := decode_eq_trapHalt.mp hv
    rw [decode_eq_trapHalt, ← hop, ← hvec]
    exact agreeOn_trap.symm
  | trapOut =>
    obtain ⟨hop, hvec⟩ := decode_eq_trapOut.mp hv
    rw [decode_eq_trapOut, ← hop, ← hvec]
    exact agreeOn_trap.symm

end

theorem decode_eq_known_iff {w : Word} {i : Instr} :
    decode w = .known i ↔ w &&& ~~~ i.ignoredBits = encode i &&& ~~~ i.ignoredBits :=
  (decode_eq_known_iff_agreeOn (decode_encode i)).trans agreeOn_iff_and_eq

/-! ### Disassembly and re-assembly (R70 to R74) -/

theorem immInRange_iff {m : Int} : immInRange m = true ↔ -16 ≤ m ∧ m ≤ 15 := by
  rw [immInRange, Bool.and_eq_true, decide_eq_true_iff, decide_eq_true_iff]

theorem offInRange_iff {off : Int} : offInRange off = true ↔ -256 ≤ off ∧ off ≤ 255 := by
  rw [offInRange, Bool.and_eq_true, decide_eq_true_iff, decide_eq_true_iff]

theorem immInRange_sint (m : BitVec 5) : immInRange (sint m) = true :=
  immInRange_iff.mpr ⟨BitVec.le_toInt m, Int.le_of_lt_add_one (BitVec.toInt_lt (x := m))⟩

theorem offInRange_sint (off9 : BitVec 9) : offInRange (sint off9) = true :=
  offInRange_iff.mpr ⟨BitVec.le_toInt off9, Int.le_of_lt_add_one (BitVec.toInt_lt (x := off9))⟩

theorem fillInRange_uint (w : Word) : fillInRange (uint w) = true := by
  have hhi : uint w < 65536 := w.isLt
  rw [fillInRange, Bool.and_eq_true, decide_eq_true_iff, decide_eq_true_iff]
  omega

theorem assemble_of_wf {l : AsmLine} (h : l.wf = true) : assemble l = some l.word := if_pos h

theorem assemble_of_not_wf {l : AsmLine} (h : l.wf = false) : assemble l = none :=
  if_neg (Bool.eq_false_iff.mp h)

/-- `.FILL` of a word's unsigned value is the word. -/
theorem assemble_fill_uint (w : Word) : assemble (.fill (uint w)) = some w := by
  have hword : (AsmLine.fill (uint w)).word = w := by
    rw [AsmLine.word, BitVec.ofInt_natCast, BitVec.ofNat_toNat, BitVec.setWidth_eq]
  rw [assemble_of_wf (l := .fill (uint w)) (fillInRange_uint w), hword]

/-- A BR has no ignored bit: only the encoder's word decodes to it. -/
theorem eq_encode_of_decode_br {w : Word} {n z p : Bool} {off9 : BitVec 9}
    (h : decode w = .known (.br n z p off9)) : w = encode (.br n z p off9) := by
  have hall : ~~~ (Instr.br n z p off9).ignoredBits = BitVec.allOnes 16 := BitVec.not_zero
  have hbits := decode_eq_known_iff.mp h
  rwa [hall, BitVec.and_allOnes, BitVec.and_allOnes] at hbits

theorem assemble_disassemble (w : Word) : assemble (disassemble w) = some (canonicalWord w) := by
  cases hw : decode w with
  | unknown why =>
    simp only [disassemble, canonicalWord, hw]
    exact assemble_fill_uint w
  | known i =>
    cases i with
    | addR | andR | notR | trapHalt | trapOut =>
      simp only [disassemble, canonicalWord, hw]
      exact assemble_of_wf rfl
    | addI d a m | andI d a m =>
      simp only [disassemble, canonicalWord, hw]
      exact Eq.trans (assemble_of_wf (immInRange_sint m)) (by rw [AsmLine.word, BitVec.ofInt_toInt])
    | ld d off9 =>
      simp only [disassemble, canonicalWord, hw]
      exact Eq.trans (assemble_of_wf (offInRange_sint off9))
        (by rw [AsmLine.word, BitVec.ofInt_toInt])
    | br n z p off9 =>
      simp only [disassemble, canonicalWord, hw]
      split_ifs with hmask hoff
      · have hwf : (AsmLine.br n z p (sint off9)).wf = true := by
          rw [AsmLine.wf, hmask, offInRange_sint, Bool.and_true]
        rw [assemble_of_wf hwf, AsmLine.word, BitVec.ofInt_toInt]
      · rw [Bool.or_eq_true, Bool.or_eq_true, not_or, not_or] at hmask
        obtain ⟨⟨hn, hz⟩, hp⟩ := hmask
        rw [Bool.eq_false_of_not_eq_true hn, Bool.eq_false_of_not_eq_true hz,
          Bool.eq_false_of_not_eq_true hp, hoff]
        exact assemble_of_wf rfl
      · rw [← eq_encode_of_decode_br hw]
        exact assemble_fill_uint w

theorem decode_canonicalWord (w : Word) : decode (canonicalWord w) = decode w := by
  cases hw : decode w with
  | known i => simp only [canonicalWord, hw, decode_encode]
  | unknown why => simp only [canonicalWord, hw]

/-! ### The statements about encoder and assembler -/

/-- Settles O4: the fields of the encoder's sum, read back by division. -/
theorem decodeEncodeRoundTrip : Obligations.DecodeEncodeRoundTrip := fun i _ => decode_encode i

/-- Settles O5: the bits an instruction does not ignore are its fields, and the decoder reads those. -/
theorem decodeIgnoresExactlyTheUnusedBits : Obligations.DecodeIgnoresExactlyTheUnusedBits :=
  fun _ _ => decode_eq_known_iff

/-- Settles O11: each form's number lies in its range and is cut to itself, and `.FILL` keeps a word
that has no line of its own. -/
theorem reassemblingGivesTheCanonicalWord : Obligations.ReassemblingGivesTheCanonicalWord :=
  fun w => ⟨assemble_disassemble w, decode_canonicalWord w⟩

/-- Settles O9: the encoder's fields do not overlap, so the word is their sum. -/
theorem encodingArithmetic : Obligations.EncodingArithmetic :=
  ⟨uint_encode_addR, uint_encode_addI, uint_encode_andR, uint_encode_andI, uint_encode_notR,
    uint_encode_ld, uint_encode_br, rfl, rfl⟩

/-- Settles O10: the decoder runs on each word. -/
theorem handWrittenWordsDecode : Obligations.HandWrittenWordsDecode := by
  unfold Obligations.HandWrittenWordsDecode
  decide

/-- Settles O12: in range the cut to the field keeps the number and the word decodes back to it; out of
range, or with no flag, the line is ill formed. -/
theorem assemblerRejectsOutOfRangeNumbers : Obligations.AssemblerRejectsOutOfRangeNumbers := by
  refine ⟨fun d a m hlo hhi => ?imm, fun d a m h => ?immOut, fun d off hlo hhi => ?off,
    fun d n z p off h => ?offOut, fun off => rfl⟩
  case imm =>
    exact ⟨_, _, assemble_of_wf (l := .addI d a m) (immInRange_iff.mpr ⟨hlo, hhi⟩), decode_encode _,
      BitVec.toInt_ofInt_eq_self (by decide) (by omega) (by omega)⟩
  case immOut =>
    have hout : immInRange m = false := Bool.eq_false_iff.mpr (immInRange_iff.not.mpr (by omega))
    exact ⟨assemble_of_not_wf (l := .addI d a m) hout, assemble_of_not_wf (l := .andI d a m) hout⟩
  case off =>
    exact ⟨_, _, assemble_of_wf (l := .ld d off) (offInRange_iff.mpr ⟨hlo, hhi⟩), decode_encode _,
      BitVec.toInt_ofInt_eq_self (by decide) (by omega) (by omega)⟩
  case offOut =>
    have hout : offInRange off = false := Bool.eq_false_iff.mpr (offInRange_iff.not.mpr (by omega))
    have hbr : (AsmLine.br n z p off).wf = false := by rw [AsmLine.wf, hout, Bool.and_false]
    exact ⟨assemble_of_not_wf (l := .ld d off) hout, assemble_of_not_wf hbr⟩

end Sys2Proof

/-! PROOFS. The laws of ADD, AND and NOT (41_alu.md R98, R99), the faults and the wrap of LD (42_load.md
R101, R103), TRAP OUT (44_trap.md R112), and the statements about them. -/

namespace Sys2Proof.Machine

/-! ### Copying and negating (R98, R99) -/

theorem invert_invert (v : Word) : invert (invert v) = v := BitVec.not_not

/-- AND DR,SR1,#-1 copies SR1 to DR and sets CC from it. -/
theorem exec_andI_neg_one (d a : Reg) (s : State) :
    exec (.andI d a (-1#5)) s = .next (aluWrite d (s.reg a) s) := by
  have hones : immOperand (-1#5) = BitVec.allOnes 16 := by decide
  rw [exec_andI, hones, BitVec.and_allOnes]

theorem invert_add_immOperand_one (v : Word) : invert v + immOperand 1#5 = -v :=
  (BitVec.neg_eq_not_add v).symm

/-- Settles O22: both sides of each law are ALU writes of equal values. -/
theorem aluLaws : Obligations.AluLaws := by
  refine ⟨fun d a b s => ?commutes, fun d a s => ?copies, fun d a s => ?restores⟩
  case commutes => rw [exec_addR, exec_addR, BitVec.add_comm]
  case copies =>
    exact ⟨_, exec_andI_neg_one d a s, exec_addI_zero d a s, aluWrite_reg_same d _ s,
      aluWrite_cc d _ s⟩
  case restores =>
    refine ⟨_, _, exec_notR d a s, exec_notR d d _, ?_, ?_⟩
    · rw [aluWrite_reg_same, aluWrite_reg_same, invert_invert]
    · rw [aluWrite_cc, aluWrite_reg_same, invert_invert]

/-- Settles O23: NOT and ADD #1 leave the negation in DR, and a register other than DR is still what it
was when it is added. -/
theorem negationAndSubtraction : Obligations.NegationAndSubtraction := by
  intro d a b s
  refine ⟨_, _, _, exec_notR d a s, exec_addI d d 1#5 _, exec_addR d b d _, ?negation,
    fun hbd => ?subtraction⟩
  case negation =>
    rw [aluWrite_reg_same, aluWrite_reg_same, invert_add_immOperand_one]
    exact BitVec.toNat_neg (s.reg a)
  case subtraction =>
    rw [aluWrite_reg_same, aluWrite_cc, aluWrite_reg_same, aluWrite_reg_same, aluWrite_reg_ne _ _ hbd,
      aluWrite_reg_ne _ _ hbd, invert_add_immOperand_one, ← BitVec.sub_eq_add_neg]
    exact ⟨rfl, rfl⟩

/-! ### Faulting steps (R83, R84, R101, R124) -/

/-- From a Running state an instruction faults only as an LD, which then writes the status alone. -/
theorem dataKept_of_exec_faulted {i : Instr} {s t : State} {reason : FaultReason}
    (hrun : s.status = .running) (h : exec i s = .next t) (hf : t.status = .faulted reason) :
    DataKept s t := by
  obtain ⟨-, hs⟩ | ⟨d, off, rfl, hb, -⟩ | ⟨-, hs⟩ := exec_status_cases h
  · rw [hs] at hf; cases hf
  · rw [exec_ld_unbacked hb] at h
    cases h
    exact (DataKept.refl s).raiseFault _
  · rw [hs, hrun] at hf; cases hf

theorem dataKept_of_step_faulted {s t : State} {reason : FaultReason} (h : step s = .next t)
    (hf : t.status = .faulted reason) : DataKept s t := by
  obtain ⟨hrun, ⟨-, rfl⟩ | ⟨-, _, -, rfl⟩ | ⟨-, i, -, he⟩⟩ := step_cases h
  · exact (DataKept.refl s).raiseFault _
  · exact ((DataKept.refl s).fetchAdvance _).raiseFault _
  · exact dataKept_of_exec_faulted (s := fetchAdvance (wordAtPc s) s) hrun he hf

/-- The rows of the fault table exclude each other: the step they speak of has one status. -/
theorem CausesFault.unique {s : State} {a b : FaultReason} (ha : CausesFault s a)
    (hb : CausesFault s b) : a = b := by
  have ha' : CausesFault (s.setStatus .running) a := ha
  have hb' : CausesFault (s.setStatus .running) b := hb
  obtain ⟨t, ht⟩ := step_next_of_running (State.setStatus_status .running s)
  exact Status.faulted.inj ((ha'.status_of_step ht).symm.trans (hb'.status_of_step ht))

/-- Settles O40: a faulting step writes at most PC, IR and the status, and its status names the
reason. -/
theorem faultingStepKeepsData : Obligations.FaultingStepKeepsData :=
  ⟨fun _ _ _ => dataKept_of_step_faulted, fun _ _ _ => CausesFault.unique⟩

/-- Settles O25: the integer target is `pcRelative`, and LD then takes its fault. -/
theorem loadOutsideMemoryFaults : Obligations.LoadOutsideMemoryFaults := by
  intro d off9 s ea hea hcap
  obtain rfl : ea = uint (pcRelative off9 s) :=
    Int.ofNat_inj.mp (hea.trans (pcRelative_toNat off9 s).symm)
  exact ⟨_, exec_ld_unbacked hcap.not_gt, raiseFault_status _ s, (DataKept.refl s).raiseFault _⟩

/-! ### The wrap of the LD target (R103, decision D3) -/

/-- The target of an instruction at PC is an integer sum modulo 2^16. -/
theorem target_toNat (off9 : BitVec 9) (s : State) :
    (uint (s.pc + 1 + sext16 off9) : Int) = ((uint s.pc : Int) + 1 + sint off9) % 65536 := by
  have htarget := pcRelative_toNat off9 (fetchAdvance (wordAtPc s) s)
  rwa [fetchAdvance_pc_toNat, Int.emod_add_emod] at htarget

theorem off9_bounds (off9 : BitVec 9) : -256 ≤ sint off9 ∧ sint off9 ≤ 255 :=
  ⟨BitVec.le_toInt off9, Int.le_of_lt_add_one (BitVec.toInt_lt (x := off9))⟩

/-- A sum below 0 is at least -255, so it wraps into the last 255 addresses. -/
theorem target_of_neg {s : State} {off9 : BitVec 9} (h : (uint s.pc : Int) + 1 + sint off9 < 0) :
    (uint (s.pc + 1 + sext16 off9) : Int) = 65536 + ((uint s.pc : Int) + 1 + sint off9) ∧
      65281 ≤ uint (s.pc + 1 + sext16 off9) := by
  have htarget := target_toNat off9 s
  have hoff := off9_bounds off9
  omega

/-- A sum above 65535 is less than 2^17 and wraps once. -/
theorem target_of_overflow {s : State} {off9 : BitVec 9}
    (h : 65535 < (uint s.pc : Int) + 1 + sint off9) :
    65280 ≤ uint s.pc ∧
      (uint (s.pc + 1 + sext16 off9) : Int) = (uint s.pc : Int) + 1 + sint off9 - 65536 := by
  have htarget := target_toNat off9 s
  have hoff := off9_bounds off9
  have hpc : uint s.pc < 65536 := s.pc.isLt
  omega

/-- Settles O27: a target wrapped below 0 is at or above 65281, where a smaller memory has no word and
the step faults; the largest memory backs every target. -/
theorem loadTargetWraps : Obligations.LoadTargetWraps := by
  refine ⟨fun s off9 => target_of_neg, fun s off9 => target_of_overflow,
    fun s d off9 hrun hb hd hneg hcap => ?faults, fun s d off9 hcap => ?never⟩
  case faults =>
    obtain ⟨-, hhigh⟩ := target_of_neg hneg
    have hcause : CausesFault s .addressOutOfRange :=
      .inr (.inr ⟨hb, ⟨d, off9, hd, hcap.trans hhigh⟩, rfl⟩)
    obtain ⟨t, ht⟩ := step_next_of_running hrun
    have hf := hcause.status_of_step ht
    exact ⟨t, ht, hf, dataKept_of_step_faulted ht hf⟩
  case never =>
    have hbacked : s.mem.backed (pcRelative off9 s) := by
      rw [Memory.backed, hcap]
      exact (pcRelative off9 s).isLt
    exact ⟨_, exec_ld_backed hbacked, State.setReg_status d _ s⟩

/-! ### BR to an unbacked target (R107) -/

/-- Settles O31: the BR's step is the fetch-advance and a `setPc`; the fetch at the target then
faults, and neither step writes data. -/
theorem branchToUnbackedTargetFaultsAtNextFetch :
    Obligations.BranchToUnbackedTargetFaultsAtNextFetch := by
  intro s n z p off9 hrun hb hd hc hcap
  have htaken := exec_br_taken (off := off9) (s := fetchAdvance (wordAtPc s) s) hc
  refine ⟨_, _, (step_of_known hrun hb hd).trans htaken, hrun, rfl,
    step_fetch_unbacked hrun hcap.not_gt, raiseFault_status _ _, ?_⟩
  exact (((DataKept.refl s).fetchAdvance _).setPc _).raiseFault _

/-! ### TRAP OUT (R112) -/

/-- Settles O33: the mask fixes opcode and vector, and the service is an `emit` of R0's low byte. -/
theorem trapOutEmitsTheLowByteOfR0 : Obligations.TrapOutEmitsTheLowByteOfR0 := by
  refine ⟨fun w h => ?encoding, fun s => ?effect⟩
  case encoding =>
    exact decode_eq_trapOut.mpr ⟨opcodeField_of_match h rfl, trapVectorField_of_match h rfl⟩
  case effect =>
    exact ⟨_, _, exec_trapOut s, State.emit_out _ s, trapVectorField_toNat (s.reg .r0),
      fun r => State.emit_reg _ r s, State.emit_cc _ s, MemoryKept.refl s, State.emit_pc _ s,
      State.emit_ir _ s, State.emit_status _ s⟩

end Sys2Proof.Machine

/-! PROOFS. What every step and every run keeps (10_state.md R25, R26, R31; 40_engine.md R87; R149): IR
and the output trace are read by no instruction, CC once set stays set, a run through zero words, and
the statements about them. -/

namespace Sys2Proof.Machine

/-! ### Progress (R82, R149) -/

theorem step_of_halted {s : State} (h : s.status = .halted) : step s = .fault .noStepWhenHalted := by
  simp only [step, h]

theorem step_of_faulted {s : State} {reason : FaultReason} (h : s.status = .faulted reason) :
    step s = .fault (.noStepWhenFaulted reason) := by
  simp only [step, h]

/-- Settles O43: `exec` and a Running step always answer a state; a final state has no step, so the
port keeps it. -/
theorem runningStepsAlwaysComplete : Obligations.RunningStepsAlwaysComplete := by
  refine ⟨exec_next, fun s => step_next_of_running, fun s h => ?halted, fun s reason h => ?faulted⟩
  case halted => exact ⟨step_of_halted h, stepPort_of_final (by simp [Final, h])⟩
  case faulted => exact ⟨step_of_faulted h, stepPort_of_final (by simp [Final, h])⟩

/-! ### IR and the output trace (R25, R31) -/

/-- The codes an instruction delivers: one for TRAP OUT, none for any other. -/
def emittedCodes : Instr → State → List CharCode
  | .trapOut, s => [bits (s.reg .r0) 7 0]
  | _, _ => []

theorem emittedCodes_of_ne_trapOut {i : Instr} (h : i ≠ .trapOut) (s : State) :
    emittedCodes i s = [] := by
  cases i with
  | trapOut => exact absurd rfl h
  | _ => rfl

/-- The state with another IR and another trace. -/
def State.withIrOut (v : Word) (o : List CharCode) (s : State) : State := { s with ir := v, out := o }

theorem State.withIrOut_own_out (v : Word) (s : State) : s.withIrOut v s.out = s.setIr v := rfl

/-- No instruction reads IR or the trace: with any others it gives the same state with that IR and
its codes after that trace. -/
theorem exec_withIrOut {i : Instr} {s t : State} (h : exec i s = .next t) (v : Word)
    (o : List CharCode) :
    exec i (s.withIrOut v o) = .next (t.withIrOut v (o ++ emittedCodes i s)) := by
  by_cases hi : i = .trapOut
  · subst hi
    cases h
    rfl
  rw [emittedCodes_of_ne_trapOut hi, List.append_nil]
  cases i with
  | addR | addI | andR | andI | notR | trapHalt => cases h; rfl
  | ld d off =>
    by_cases hb : s.mem.backed (pcRelative off s)
    · rw [exec_ld_backed hb] at h
      cases h
      exact exec_ld_backed (s := s.withIrOut v o) hb
    · rw [exec_ld_unbacked hb] at h
      cases h
      exact exec_ld_unbacked (s := s.withIrOut v o) hb
  | br n z p off =>
    by_cases hc : branchTaken n z p s.cc = true
    · rw [exec_br_taken hc] at h
      cases h
      exact exec_br_taken (s := s.withIrOut v o) hc
    · rw [exec_br_notTaken hc] at h
      cases h
      exact exec_br_notTaken (s := s.withIrOut v o) hc
  | trapOut => exact absurd rfl hi

theorem exec_out {i : Instr} {s t : State} (h : exec i s = .next t) :
    t.out = s.out ++ emittedCodes i s := by
  have hsame := exec_withIrOut h s.ir s.out
  have ht : t = t.withIrOut s.ir (s.out ++ emittedCodes i s) :=
    Host.Outcome.next.inj (h.symm.trans hsame)
  exact congrArg State.out ht

theorem step_ir {s t : State} (h : step s = .next t) (hnf : ∀ reason, t.status ≠ .faulted reason) :
    t.ir = wordAtPc s := by
  obtain ⟨-, -, -, hir⟩ | ⟨reason, hf, -⟩ | ⟨-, -, hir⟩ := step_status_cases h
  · exact hir
  · exact absurd hf (hnf reason)
  · exact hir

/-- Settles O48: the fetch puts the word at PC in IR, and no instruction writes or reads it. -/
theorem irIsTheFetchedWord : Obligations.IrIsTheFetchedWord := by
  refine ⟨fun s t => step_ir, fun i s t v h => ?unread⟩
  case unread =>
    have hexec := exec_withIrOut h v s.out
    rwa [← exec_out h, State.withIrOut_own_out, State.withIrOut_own_out] at hexec

/-- What a step appends to the trace: one code when it runs a TRAP OUT, none otherwise. -/
theorem step_out {s t : State} (h : step s = .next t) :
    if s.mem.backed s.pc ∧ decode (wordAtPc s) = .known .trapOut
    then ∃ c, t.out = s.out ++ [c] else t.out = s.out := by
  obtain ⟨-, ⟨hb, rfl⟩ | ⟨hb, why, hd, rfl⟩ | ⟨hb, i, hd, he⟩⟩ := step_cases h
  · rw [if_neg fun hout => hb hout.1]
    exact raiseFault_out _ s
  · have hne : decode (wordAtPc s) ≠ .known .trapOut := by
      rw [wordAtPc, hd]
      nofun
    rw [if_neg fun hout => hne hout.2]
    exact raiseFault_out _ _
  · have hout := exec_out he
    rw [fetchAdvance_out] at hout
    by_cases hi : i = .trapOut
    · subst hi
      rw [if_pos ⟨hb, hd⟩]
      exact ⟨_, hout⟩
    · have hne : decode (wordAtPc s) ≠ .known .trapOut := by
        rw [wordAtPc, hd]
        exact fun hk => hi (Decoded.known.inj hk)
      rw [if_neg fun hk => hne hk.2, hout, emittedCodes_of_ne_trapOut hi, List.append_nil]

theorem step_appends {s t : State} (h : step s = .next t) : ∃ codes, t.out = s.out ++ codes := by
  have hout := step_out h
  split_ifs at hout
  · obtain ⟨c, hc⟩ := hout
    exact ⟨[c], hc⟩
  · exact ⟨[], by rw [hout, List.append_nil]⟩

theorem runFor_appends (k : Nat) (s : State) : ∃ codes, (runFor k s).out = s.out ++ codes := by
  refine runFor_keeps (P := fun u => ∃ codes, u.out = s.out ++ codes) (fun hu hstep => ?_) k
    ⟨[], (List.append_nil s.out).symm⟩
  obtain ⟨codes, hcodes⟩ := hu
  obtain ⟨more, hmore⟩ := step_appends hstep
  exact ⟨codes ++ more, by rw [hmore, hcodes, List.append_assoc]⟩

/-- Settles O50: each step appends its instruction's codes, a run appends step by step, and an
instruction only ever appends to the trace. -/
theorem outputTraceOnlyGrows : Obligations.OutputTraceOnlyGrows := by
  refine ⟨fun s t => step_out, runFor_appends, fun i s t o h => ?unread⟩
  case unread =>
    refine ⟨_, emittedCodes i s, exec_withIrOut h s.ir o, ?_, exec_out h⟩
    rw [← exec_ir h]
    rfl

/-! ### The condition code (R26, decision D7) -/

theorem exec_cc_ne_u_of_aluDest {i : Instr} {s t : State} (hi : aluDest i ≠ none)
    (h : exec i s = .next t) : t.cc ≠ .u := by
  obtain ⟨d, hd⟩ := Option.ne_none_iff_exists'.mp hi
  rw [exec_cc_of_aluDest hd h]
  exact setcc_ne_u _

theorem exec_cc_ne_u {i : Instr} {s t : State} (hs : s.cc ≠ .u) (h : exec i s = .next t) :
    t.cc ≠ .u := by
  by_cases hi : aluDest i = none
  · rwa [exec_cc_of_no_aluDest hi h]
  · exact exec_cc_ne_u_of_aluDest hi h

theorem step_cc_ne_u {s t : State} (hs : s.cc ≠ .u) (h : step s = .next t) : t.cc ≠ .u := by
  obtain ⟨-, ⟨-, rfl⟩ | ⟨-, _, -, rfl⟩ | ⟨-, i, -, he⟩⟩ := step_cases h
  · exact hs
  · exact hs
  · exact exec_cc_ne_u (s := fetchAdvance (wordAtPc s) s) hs he

/-- Settles O59: an ALU instruction writes N, Z or P, and every other step keeps CC. -/
theorem conditionCodeOnceSetStaysSet : Obligations.ConditionCodeOnceSetStaysSet :=
  ⟨fun _ _ _ => exec_cc_ne_u_of_aluDest, fun k _ => runFor_keeps step_cc_ne_u k⟩

/-! ### Running through zero words (R87) -/

theorem runFor_succ_of_last_step {k : Nat} {s t : State} (h : step (runFor k s) = .next t) :
    runFor (k + 1) s = t := by
  rw [runFor_add, runFor_succ_of_step h, runFor]

/-- The word 0x0000 is a BR with mask 000, so its step is the fetch-advance alone. -/
theorem step_of_zero_word {s : State} (hrun : s.status = .running) (hb : s.mem.backed s.pc)
    (hw : wordAtPc s = 0x0000#16) : step s = .next (fetchAdvance 0x0000#16 s) := by
  have hd : decode (wordAtPc s) = .known (.br false false false 0#9) := by
    rw [hw]
    decide
  rw [step_of_known hrun hb hd, exec_br_notTaken (not_branchTaken_of_noFlags _), hw]

/-- While the run is inside the zero words, `k` steps advance PC by `k`. -/
theorem runFor_zero_words {s : State} {n : Nat} (hrun : s.status = .running)
    (hcap : s.mem.capacity < 65536) (hend : uint s.pc + n = s.mem.capacity)
    (hzero : ∀ a, uint s.pc ≤ a → a < s.mem.capacity → s.mem.read a = 0x0000#16) {k : Nat}
    (hk : k ≤ n) :
    (runFor k s).status = .running ∧ uint (runFor k s).pc = uint s.pc + k ∧
      DataKept s (runFor k s) := by
  induction k with
  | zero => exact ⟨hrun, rfl, DataKept.refl s⟩
  | succ k ih =>
    obtain ⟨hrun', hpc, hdata⟩ := ih (by omega)
    have hmem := runFor_mem k s
    have hb : (runFor k s).mem.backed (runFor k s).pc := by
      rw [Memory.backed, hmem, hpc]
      omega
    have hw : wordAtPc (runFor k s) = 0x0000#16 := by
      rw [wordAtPc, hmem, hpc]
      exact hzero _ (by omega) (by omega)
    rw [runFor_succ_of_last_step (step_of_zero_word hrun' hb hw)]
    refine ⟨hrun', ?_, hdata.fetchAdvance _⟩
    have hadvance := fetchAdvance_pc_toNat 0x0000#16 (runFor k s)
    omega

/-- Settles O45: the zero words advance PC to the capacity, where the fetch faults. -/
theorem zeroFilledMemoryRunsOffTheEnd : Obligations.ZeroFilledMemoryRunsOffTheEnd := by
  intro s n hrun hcap hend hzero
  have hall {k : Nat} (hk : k ≤ n) := runFor_zero_words hrun hcap hend hzero hk
  obtain ⟨hrun', hpc, hdata⟩ := hall le_rfl
  have hout : ¬ (runFor n s).mem.backed (runFor n s).pc := by
    rw [Memory.backed, runFor_mem, hpc, hend]
    exact lt_irrefl _
  rw [runFor_succ_of_last_step (step_fetch_unbacked hrun' hout)]
  exact ⟨fun k => hall, raiseFault_status _ _, hdata.raiseFault _⟩

end Sys2Proof.Machine

/-! PROOFS. The ports, launch and reset (10_state.md R33, R36; 70_reset_and_hazards.md R140, R141): what
a load answers and leaves, the memory after a list of loads, and the statements about them. -/

namespace Sys2Proof.Machine

/-! ### The inspection port on memory (R36) -/

theorem inspectMem_backed {s : State} {a : Nat} (h : a < s.mem.capacity) :
    inspectMem a s = .ok (s.mem.read a) := if_pos (by omega)

theorem inspectMem_unbacked {s : State} {a : Int} (h : a < 0 ∨ (s.mem.capacity : Int) ≤ a) :
    inspectMem a s = .error .rangeError := if_neg (by omega)

/-- An integer is the number of a backed address, or both ports refuse it. -/
theorem address_cases (capacity : Nat) (a : Int) :
    (∃ n : Nat, a = n ∧ n < capacity) ∨ (a < 0 ∨ (capacity : Int) ≤ a) := by
  by_cases h : a < 0 ∨ (capacity : Int) ≤ a
  · exact .inr h
  · exact .inl ⟨a.toNat, by omega, by omega⟩

/-- A write to one address is seen by no inspection of another. -/
theorem inspectMem_write_ne {s : State} {n : Nat} {b : Int} (w : Word) (h : b ≠ n) :
    inspectMem b (s.setMem (s.mem.write n w)) = inspectMem b s := by
  obtain ⟨m, rfl, hm⟩ | hout := address_cases s.mem.capacity b
  · have hne : m ≠ n := fun e => h (congrArg Nat.cast e)
    rw [inspectMem_backed hm, inspectMem_backed (s := s.setMem (s.mem.write n w)) hm, State.setMem_mem,
      Memory.read_write_ne _ _ hne]
  · rw [inspectMem_unbacked hout, inspectMem_unbacked (s := s.setMem (s.mem.write n w)) hout]

/-! ### The state after a call of the load port (R33) -/

theorem afterLoad_backed {s : State} {n : Nat} (w : Word) (h : n < s.mem.capacity) :
    afterLoad n w s = s.setMem (s.mem.write n w) := by
  simp only [afterLoad, loadPort_backed w h]

theorem afterLoad_unbacked {s : State} {a : Int} (w : Word)
    (h : a < 0 ∨ (s.mem.capacity : Int) ≤ a) : afterLoad a w s = s := by
  simp only [afterLoad, loadPort_unbacked w h]

/-- Settles O53: inside the memory a load is one `Memory.write`, outside it both ports refuse. -/
theorem portsRefuseAddressesOutsideMemory : Obligations.PortsRefuseAddressesOutsideMemory := by
  refine ⟨fun s a w hlo hhi => ?accepted, fun s a w h => ?refused⟩
  case accepted =>
    obtain ⟨n, rfl⟩ := Int.eq_ofNat_of_zero_le hlo
    have hn : n < s.mem.capacity := Int.ofNat_lt.mp hhi
    refine ⟨_, loadPort_backed w hn, ?_, fun r => State.setMem_reg _ r s, State.setMem_pc _ s,
      State.setMem_ir _ s, State.setMem_cc _ s, State.setMem_status _ s, State.setMem_out _ s,
      fun b => inspectMem_write_ne w⟩
    rw [inspectMem_backed (s := s.setMem (s.mem.write n w)) hn, State.setMem_mem, Memory.read_write_same]
  case refused => exact ⟨loadPort_unbacked w h, afterLoad_unbacked w h, inspectMem_unbacked h⟩

/-! ### What a load leaves of each part of the state (R141) -/

theorem afterLoad_setMem (a : Int) (w : Word) (m : Memory) (s : State) :
    (afterLoad a w s).setMem m = s.setMem m := by
  obtain ⟨n, rfl, hn⟩ | hout := address_cases s.mem.capacity a
  · rw [afterLoad_backed w hn]
    rfl
  · rw [afterLoad_unbacked w hout]

theorem afterLoad_capacity (a : Int) (w : Word) (s : State) :
    (afterLoad a w s).mem.capacity = s.mem.capacity := by
  obtain ⟨n, rfl, hn⟩ | hout := address_cases s.mem.capacity a
  · rw [afterLoad_backed w hn, State.setMem_mem, Memory.write_capacity]
  · rw [afterLoad_unbacked w hout]

theorem afterLoad_wf {s : State} (h : s.mem.wf) (a : Int) (w : Word) : (afterLoad a w s).mem.wf := by
  obtain ⟨n, rfl, hn⟩ | hout := address_cases s.mem.capacity a
  · rw [afterLoad_backed w hn]
    exact Memory.write_wf h hn w
  · rwa [afterLoad_unbacked w hout]

/-- A backed address reads the word of a load to it, and as before after any other load. -/
theorem afterLoad_read (a : Int) (w : Word) {s : State} {b : Nat} (hb : b < s.mem.capacity) :
    (afterLoad a w s).mem.read b = if a = (b : Int) then w else s.mem.read b := by
  obtain ⟨n, rfl, hn⟩ | hout := address_cases s.mem.capacity a
  · rw [afterLoad_backed w hn, State.setMem_mem, Memory.read_write]
    simp only [Int.ofNat_inj, eq_comm]
  · rw [afterLoad_unbacked w hout, if_neg (by omega)]

/-! ### The launch state (R141), one more load at the end of the list -/

section
variable (capacity : Nat) (init : RegInit) (loads : List (Int × Word))

theorem launchState_concat (l : Int × Word) :
    launchState capacity init (loads ++ [l]) = afterLoad l.1 l.2 (launchState capacity init loads) :=
  List.foldl_concat ..

theorem launchState_setMem (m : Memory) :
    (launchState capacity init loads).setMem m = (State.resetWith capacity init).setMem m := by
  induction loads using List.reverseRecOn with
  | nil => rfl
  | append_singleton loads l ih => rw [launchState_concat, afterLoad_setMem, ih]

theorem launchState_capacity : (launchState capacity init loads).mem.capacity = capacity := by
  induction loads using List.reverseRecOn with
  | nil => rfl
  | append_singleton loads l ih => rw [launchState_concat, afterLoad_capacity, ih]

theorem launchState_wf (hlo : 1 ≤ capacity) (hhi : capacity ≤ 65536) :
    (launchState capacity init loads).mem.wf := by
  induction loads using List.reverseRecOn with
  | nil => exact Memory.empty_wf hlo hhi
  | append_singleton loads l ih =>
    rw [launchState_concat]
    exact afterLoad_wf ih l.1 l.2

/-- The last load to an address is the first one found from the end of the list. -/
theorem launchState_read {a : Nat} (ha : a < capacity) :
    (launchState capacity init loads).mem.read a
      = ((loads.reverse.find? (fun l => l.1 = (a : Int))).map (fun l => l.2)).getD 0x0000#16 := by
  induction loads using List.reverseRecOn with
  | nil => rfl
  | append_singleton loads l ih =>
    have hcap : a < (launchState capacity init loads).mem.capacity := by
      rwa [launchState_capacity]
    rw [launchState_concat, afterLoad_read _ _ hcap, List.reverse_concat, List.find?_cons, ih]
    by_cases hl : l.1 = (a : Int) <;> simp [hl]

end

/-- Settles O54: by induction on the loads, the last one first. -/
theorem launchMemoryIsTheLastLoads : Obligations.LaunchMemoryIsTheLastLoads :=
  fun capacity init loads => ⟨fun _ => launchState_read capacity init loads,
    launchState_setMem capacity init loads _, launchState_wf capacity init loads⟩

/-! ### Reset (R140) -/

theorem resetWith_index_reg (n : Nat) (r : Reg) :
    (State.resetWith n .index).reg r = BitVec.ofNat 16 r.index := by
  cases r <;> rfl

theorem resetWith_zero_reg (n : Nat) (r : Reg) : (State.resetWith n .zero).reg r = 0x0000#16 := by
  cases r <;> rfl

theorem resetWith_read (n : Nat) (init : RegInit) (a : Nat) :
    (State.resetWith n init).mem.read a = 0x0000#16 := rfl

/-- Settles O55: the fields of `State.resetWith` at the spec's parameters. -/
theorem resetStateValues : Obligations.ResetStateValues :=
  ⟨rfl, rfl, rfl, resetWith_zero_reg _, rfl, rfl, resetWith_read _ _, rfl, resetWith_index_reg⟩

end Sys2Proof.Machine
